-- ==== Sys2Proof/Word.lean ====
section
/-! DEFINITION. The widths of the machine: bytes, 16-bit words, the instruction's fields, register indices
(spec/00_scope.md R6, R7; spec/30_encoding.md R81). All values are unsigned (R7). -/

namespace Sys2Proof

/-- A memory cell or a general register: 8 bits, unsigned (20_memory.md R50, 10_state.md R22). -/
abbrev Byte := BitVec 8

/-- I, PC, a stack entry, an instruction word: 16 bits (10_state.md R27, R28, R31; 30_encoding.md R80). -/
abbrev Word := BitVec 16

/-- The field `nnn`, a 12-bit address immediate (30_encoding.md R81). -/
abbrev Addr12 := BitVec 12

/-- The field `n`, a 4-bit immediate (30_encoding.md R81). -/
abbrev Nibble := BitVec 4

/-- A register index 0..15, the fields `x` and `y`: no index is out of range (10_state.md R22, 20_memory.md R59). -/
abbrev RegIdx := Fin 16

end Sys2Proof
end

