-- ==== Sys2Proof/Config.lean ====
section
/-! DEFINITION. The parameters of the block (spec/00_scope.md R6) and its one free value, the random byte
(spec/40_step_cycle.md R106). -/

namespace Sys2Proof

/-- MEM_SIZE: 4096 bytes (R6). -/
def memSize : Nat := 4096

/-- PROGRAM_BASE: the reset value of PC and the first byte of an image (R6). -/
def programBase : Nat := 0x200

/-- MAX_IMAGE: 3584 bytes (R6; 20_memory.md R64). -/
def maxImage : Nat := 0xE00

/-- ADDR_MASK: applied to every address-producing expression (R6). -/
def addrMask : Word := 0xFFF

/-- The parameters an implementation fixes at build time. STACK_DEPTH is the only OPEN one: `none` is an
unbounded call stack, `some d` a bound of d entries, d at least 1 (R6; 10_state.md R32). The value is carried by
`State.cfg`, which no step changes, so a theorem about every state holds for every value of it
(notes/assumptions/4.md). -/
structure Config where
  stackDepth : Option Nat
  deriving DecidableEq, Repr

/-- The spec's default for a hardware instance, `some 16` (R6). PRESUMED (notes/assumptions/4.md): 92_eei_decisions.md
D8 takes the number from general knowledge. -/
def Config.hardwareDefault : Config := { stackDepth := some 16 }

/-- RANDOM_SOURCE: the random byte of the k-th draw, any value, under no law (40_step_cycle.md R106). It has no body:
nothing can be proved of a value of it (notes/assumptions/3.md). -/
opaque Config.randomByte : Nat → Byte

end Sys2Proof
end

