-- ==== Sys2Proof/Syntax.lean ====
section
/-! DEFINITION. The instructions: one constructor per row of spec/opcode_table.json, in the table's order, the 26
instructions of spec/30_encoding.md R84 and the 8 named Unimplemented rows of spec/45_unimplemented.md R182. -/

namespace Sys2Proof

/-- One constructor per row of the opcode table. `x` and `y` are register indices, `nn` an 8-bit, `nnn` a 12-bit and
`n` a 4-bit immediate (30_encoding.md R81, R83). Operands stand in the order of R92, destination first. -/
inductive Instr where
  /-- 00E0 -/
  | cls
  /-- 00EE -/
  | ret
  /-- 1nnn -/
  | jp (nnn : Addr12)
  /-- 2nnn -/
  | call (nnn : Addr12)
  /-- 3xnn -/
  | seImm (x : RegIdx) (nn : Byte)
  /-- 4xnn -/
  | sneImm (x : RegIdx) (nn : Byte)
  /-- 5xy0 -/
  | seReg (x y : RegIdx)
  /-- 9xy0 -/
  | sneReg (x y : RegIdx)
  /-- 6xnn -/
  | ldImm (x : RegIdx) (nn : Byte)
  /-- 7xnn -/
  | addImm (x : RegIdx) (nn : Byte)
  /-- 8xy0 -/
  | ldReg (x y : RegIdx)
  /-- 8xy1 -/
  | orReg (x y : RegIdx)
  /-- 8xy2 -/
  | andReg (x y : RegIdx)
  /-- 8xy3 -/
  | xorReg (x y : RegIdx)
  /-- 8xy4 -/
  | addReg (x y : RegIdx)
  /-- 8xy5 -/
  | subReg (x y : RegIdx)
  /-- 8xy6 -/
  | shr (x y : RegIdx)
  /-- 8xy7 -/
  | subn (x y : RegIdx)
  /-- 8xyE -/
  | shl (x y : RegIdx)
  /-- Annn -/
  | ldI (nnn : Addr12)
  /-- Bnnn -/
  | jpV0 (nnn : Addr12)
  /-- Cxnn -/
  | rnd (x : RegIdx) (nn : Byte)
  /-- Dxyn -/
  | drw (x y : RegIdx) (n : Nibble)
  /-- Fx1E -/
  | addI (x : RegIdx)
  /-- Fx55 -/
  | stRegs (x : RegIdx)
  /-- Fx65 -/
  | ldRegs (x : RegIdx)
  /-- Ex9E, keypad group: Unimplemented -/
  | unimplEx9E (x : RegIdx)
  /-- ExA1, keypad group: Unimplemented -/
  | unimplExA1 (x : RegIdx)
  /-- Fx07, timer group: Unimplemented -/
  | unimplFx07 (x : RegIdx)
  /-- Fx0A, keypad group: Unimplemented -/
  | unimplFx0A (x : RegIdx)
  /-- Fx15, timer group: Unimplemented -/
  | unimplFx15 (x : RegIdx)
  /-- Fx18, timer group: Unimplemented -/
  | unimplFx18 (x : RegIdx)
  /-- Fx29, BCD/font group: Unimplemented -/
  | unimplFx29 (x : RegIdx)
  /-- Fx33, BCD/font group: Unimplemented -/
  | unimplFx33 (x : RegIdx)
  deriving DecidableEq, Repr

/-- What the decoder makes of a word. Decoding cannot fail: a word that no row of the table names is rejected by name,
as `unimplemented` (40_step_cycle.md R103; 45_unimplemented.md R183), and step then acts as R180 says. -/
inductive Decoded where
  /-- the word is the row's instruction -/
  | instr (i : Instr)
  /-- the word matches no row of the opcode table -/
  | unimplemented (word : Word)
  deriving DecidableEq, Repr

/-- What the decoder makes of a list of bytes. -/
inductive ByteDecoded where
  /-- the first two bytes are this; the rest of the list follows -/
  | word (d : Decoded) (rest : List Byte)
  /-- fewer than the two bytes of an instruction (30_encoding.md R80) -/
  | truncated
  deriving DecidableEq, Repr

/-- A row of the opcode table: a word `w` selects it when `w &&& mask = pattern` (30_encoding.md R84), and is then
`build w`. -/
structure OpcodeRow where
  mnemonic : String
  mask : Word
  pattern : Word
  build : Word → Instr

end Sys2Proof
end

