-- ==== Sys2Proof/WellFormed.lean ====
section
/-! DEFINITION. Well-formedness. An operand out of its field's range is not a term: the fields of `Instr` have the
widths of spec/30_encoding.md R81, so every `Instr` is well-formed (spec/20_memory.md R59). What can be ill-formed is
checked here: operand values as an assembler writes them, a program image, and the parameter STACK_DEPTH. -/

namespace Sys2Proof

/-- A register index as a number fits its 4-bit field: 0..15 (R81). -/
def regOk (x : Nat) : Bool := decide (x < 16)

/-- `nn` as a number fits its 8-bit field (R81). -/
def immOk (nn : Nat) : Bool := decide (nn < 256)

/-- `nnn` as a number fits its 12-bit field (R81). -/
def addrOk (nnn : Nat) : Bool := decide (nnn < 4096)

/-- `n` as a number fits its 4-bit field (R81). -/
def rowsOk (n : Nat) : Bool := decide (n < 16)

/-- An image is at most 3584 bytes (20_memory.md R64). -/
def imageOk (bytes : List Byte) : Bool := decide (bytes.length ≤ maxImage)

/-- STACK_DEPTH is `none`, or `some d` with d at least 1 (00_scope.md R6). -/
def Config.wf (c : Config) : Bool :=
  match c.stackDepth with
  | none => true
  | some d => decide (1 ≤ d)

/-- An instruction row written with number operands, as an assembler reads it (30_encoding.md R91): the raw form that
the checks above are for. Only the operands that the row's format has are checked (R82). -/
inductive RawOperands where
  | z
  | a (nnn : Nat)
  | xn (x nn : Nat)
  | xy (x y : Nat)
  | xyn (x y n : Nat)
  | xf (x : Nat)
  deriving DecidableEq, Repr

/-- Raw operands fit their fields. -/
def RawOperands.wf : RawOperands → Bool
  | .z => true
  | .a nnn => addrOk nnn
  | .xn x nn => regOk x && immOk nn
  | .xy x y => regOk x && regOk y
  | .xyn x y n => regOk x && regOk y && rowsOk n
  | .xf x => regOk x

/-- The operands of an instruction as numbers, in the form of its format (30_encoding.md R82). -/
def Instr.raw : Instr → RawOperands
  | .cls => .z
  | .ret => .z
  | .jp nnn => .a nnn.toNat
  | .call nnn => .a nnn.toNat
  | .seImm x nn => .xn x.val nn.toNat
  | .sneImm x nn => .xn x.val nn.toNat
  | .seReg x y => .xy x.val y.val
  | .sneReg x y => .xy x.val y.val
  | .ldImm x nn => .xn x.val nn.toNat
  | .addImm x nn => .xn x.val nn.toNat
  | .ldReg x y => .xy x.val y.val
  | .orReg x y => .xy x.val y.val
  | .andReg x y => .xy x.val y.val
  | .xorReg x y => .xy x.val y.val
  | .addReg x y => .xy x.val y.val
  | .subReg x y => .xy x.val y.val
  | .shr x y => .xy x.val y.val
  | .subn x y => .xy x.val y.val
  | .shl x y => .xy x.val y.val
  | .ldI nnn => .a nnn.toNat
  | .jpV0 nnn => .a nnn.toNat
  | .rnd x nn => .xn x.val nn.toNat
  | .drw x y n => .xyn x.val y.val n.toNat
  | .addI x => .xf x.val
  | .stRegs x => .xf x.val
  | .ldRegs x => .xf x.val
  | .unimplEx9E x => .xf x.val
  | .unimplExA1 x => .xf x.val
  | .unimplFx07 x => .xf x.val
  | .unimplFx0A x => .xf x.val
  | .unimplFx15 x => .xf x.val
  | .unimplFx18 x => .xf x.val
  | .unimplFx29 x => .xf x.val
  | .unimplFx33 x => .xf x.val

/-- An instruction is well-formed when its operands fit their fields; true of every `Instr` by its types. -/
def Instr.wf (i : Instr) : Bool := i.raw.wf

end Sys2Proof
end

