-- ==== Sys2Proof/Decode.lean ====
section
/-! DEFINITION. Decoding and encoding, from spec/30_encoding.md: the fields (R81), the opcode map (R84, R85), the eight
named Unimplemented rows (45_unimplemented.md R182) and the rejection, by name, of every other word (R87, R183). -/

namespace Sys2Proof

/-- `category = bits[15:12]` (R81). -/
def catOf (w : Word) : Nibble := w.extractLsb' 12 4

/-- `x = bits[11:8]`, a register index (R81). -/
def xOf (w : Word) : RegIdx := (w.extractLsb' 8 4).toFin

/-- `y = bits[7:4]`, a register index (R81). -/
def yOf (w : Word) : RegIdx := (w.extractLsb' 4 4).toFin

/-- `n = bits[3:0]` (R81). -/
def nOf (w : Word) : Nibble := w.extractLsb' 0 4

/-- `nn = bits[7:0]` (R81). -/
def nnOf (w : Word) : Byte := w.extractLsb' 0 8

/-- `nnn = bits[11:0]` (R81). -/
def nnnOf (w : Word) : Addr12 := w.extractLsb' 0 12

/-- Category 0x0 is an exact match on all 16 bits (R88). -/
def decodeCat0 (w : Word) : Decoded :=
  if w = 0x00E0#16 then .instr .cls
  else if w = 0x00EE#16 then .instr .ret
  else .unimplemented w

/-- Category 0x5: 5xy0 only (R85). -/
def decodeCat5 (w : Word) : Decoded :=
  if nOf w = 0x0#4 then .instr (.seReg (xOf w) (yOf w)) else .unimplemented w

/-- Category 0x8, by the function nibble (R84, R85). -/
def decodeCat8 (w : Word) : Decoded :=
  match nOf w with
  | 0x0#4 => .instr (.ldReg (xOf w) (yOf w))
  | 0x1#4 => .instr (.orReg (xOf w) (yOf w))
  | 0x2#4 => .instr (.andReg (xOf w) (yOf w))
  | 0x3#4 => .instr (.xorReg (xOf w) (yOf w))
  | 0x4#4 => .instr (.addReg (xOf w) (yOf w))
  | 0x5#4 => .instr (.subReg (xOf w) (yOf w))
  | 0x6#4 => .instr (.shr (xOf w) (yOf w))
  | 0x7#4 => .instr (.subn (xOf w) (yOf w))
  | 0xE#4 => .instr (.shl (xOf w) (yOf w))
  | _ => .unimplemented w

/-- Category 0x9: 9xy0 only (R85). -/
def decodeCat9 (w : Word) : Decoded :=
  if nOf w = 0x0#4 then .instr (.sneReg (xOf w) (yOf w)) else .unimplemented w

/-- Category 0xE: no instruction; Ex9E and ExA1 are the named Unimplemented rows (45_unimplemented.md R182). -/
def decodeCatE (w : Word) : Decoded :=
  match nnOf w with
  | 0x9E#8 => .instr (.unimplEx9E (xOf w))
  | 0xA1#8 => .instr (.unimplExA1 (xOf w))
  | _ => .unimplemented w

/-- Category 0xF, by the function byte (R84, R85), with the six named Unimplemented rows (R182). -/
def decodeCatF (w : Word) : Decoded :=
  match nnOf w with
  | 0x1E#8 => .instr (.addI (xOf w))
  | 0x55#8 => .instr (.stRegs (xOf w))
  | 0x65#8 => .instr (.ldRegs (xOf w))
  | 0x07#8 => .instr (.unimplFx07 (xOf w))
  | 0x0A#8 => .instr (.unimplFx0A (xOf w))
  | 0x15#8 => .instr (.unimplFx15 (xOf w))
  | 0x18#8 => .instr (.unimplFx18 (xOf w))
  | 0x29#8 => .instr (.unimplFx29 (xOf w))
  | 0x33#8 => .instr (.unimplFx33 (xOf w))
  | _ => .unimplemented w

/-- The decoder, total on words: first on bits 15:12, then on the further fixed bits of the pattern (R85). The last
arm is category 0xF, the only nibble left. -/
def decode (w : Word) : Decoded :=
  match catOf w with
  | 0x0#4 => decodeCat0 w
  | 0x1#4 => .instr (.jp (nnnOf w))
  | 0x2#4 => .instr (.call (nnnOf w))
  | 0x3#4 => .instr (.seImm (xOf w) (nnOf w))
  | 0x4#4 => .instr (.sneImm (xOf w) (nnOf w))
  | 0x5#4 => decodeCat5 w
  | 0x6#4 => .instr (.ldImm (xOf w) (nnOf w))
  | 0x7#4 => .instr (.addImm (xOf w) (nnOf w))
  | 0x8#4 => decodeCat8 w
  | 0x9#4 => decodeCat9 w
  | 0xA#4 => .instr (.ldI (nnnOf w))
  | 0xB#4 => .instr (.jpV0 (nnnOf w))
  | 0xC#4 => .instr (.rnd (xOf w) (nnOf w))
  | 0xD#4 => .instr (.drw (xOf w) (yOf w) (nOf w))
  | 0xE#4 => decodeCatE w
  | _ => decodeCatF w

/-- The word of two bytes, the high byte first: big-endian (20_memory.md R53). -/
def wordOfBytes (hi lo : Byte) : Word := hi ++ lo

/-- The byte at the lower address (R53). -/
def hiByte (w : Word) : Byte := w.extractLsb' 8 8

/-- The byte at the higher address (R53). -/
def loByte (w : Word) : Byte := w.extractLsb' 0 8

/-- The decoder on a list of bytes: an instruction is two bytes (R80). -/
def decodeBytes : List Byte → ByteDecoded
  | hi :: lo :: rest => .word (decode (wordOfBytes hi lo)) rest
  | _ => .truncated

/-- A word of format XY: category, x, y, function nibble (R82). -/
def encXY (cat : Nibble) (x y : RegIdx) (f : Nibble) : Word :=
  cat ++ BitVec.ofFin (w := 4) x ++ BitVec.ofFin (w := 4) y ++ f

/-- A word of format XN or XF: category, x, immediate or function byte (R82). -/
def encXN (cat : Nibble) (x : RegIdx) (nn : Byte) : Word :=
  cat ++ BitVec.ofFin (w := 4) x ++ nn

/-- A word of format A: category, nnn (R82). -/
def encA (cat : Nibble) (nnn : Addr12) : Word := cat ++ nnn

/-- The word of an instruction, from the patterns of R84 and of 45_unimplemented.md R182. -/
def encode : Instr → Word
  | .cls => 0x00E0#16
  | .ret => 0x00EE#16
  | .jp nnn => encA 0x1#4 nnn
  | .call nnn => encA 0x2#4 nnn
  | .seImm x nn => encXN 0x3#4 x nn
  | .sneImm x nn => encXN 0x4#4 x nn
  | .seReg x y => encXY 0x5#4 x y 0x0#4
  | .sneReg x y => encXY 0x9#4 x y 0x0#4
  | .ldImm x nn => encXN 0x6#4 x nn
  | .addImm x nn => encXN 0x7#4 x nn
  | .ldReg x y => encXY 0x8#4 x y 0x0#4
  | .orReg x y => encXY 0x8#4 x y 0x1#4
  | .andReg x y => encXY 0x8#4 x y 0x2#4
  | .xorReg x y => encXY 0x8#4 x y 0x3#4
  | .addReg x y => encXY 0x8#4 x y 0x4#4
  | .subReg x y => encXY 0x8#4 x y 0x5#4
  | .shr x y => encXY 0x8#4 x y 0x6#4
  | .subn x y => encXY 0x8#4 x y 0x7#4
  | .shl x y => encXY 0x8#4 x y 0xE#4
  | .ldI nnn => encA 0xA#4 nnn
  | .jpV0 nnn => encA 0xB#4 nnn
  | .rnd x nn => encXN 0xC#4 x nn
  | .drw x y n => encXY 0xD#4 x y n
  | .addI x => encXN 0xF#4 x 0x1E#8
  | .stRegs x => encXN 0xF#4 x 0x55#8
  | .ldRegs x => encXN 0xF#4 x 0x65#8
  | .unimplEx9E x => encXN 0xE#4 x 0x9E#8
  | .unimplExA1 x => encXN 0xE#4 x 0xA1#8
  | .unimplFx07 x => encXN 0xF#4 x 0x07#8
  | .unimplFx0A x => encXN 0xF#4 x 0x0A#8
  | .unimplFx15 x => encXN 0xF#4 x 0x15#8
  | .unimplFx18 x => encXN 0xF#4 x 0x18#8
  | .unimplFx29 x => encXN 0xF#4 x 0x29#8
  | .unimplFx33 x => encXN 0xF#4 x 0x33#8

/-- The 26 rows of R84, in its order: masks and patterns as the spec's table gives them. The decoder above does not
read this table; that the two agree is a statement. -/
def instructionRows : List OpcodeRow :=
  [ { mnemonic := "CLS", mask := 0xFFFF, pattern := 0x00E0, build := fun _ => .cls },
    { mnemonic := "RET", mask := 0xFFFF, pattern := 0x00EE, build := fun _ => .ret },
    { mnemonic := "JP", mask := 0xF000, pattern := 0x1000, build := fun w => .jp (nnnOf w) },
    { mnemonic := "CALL", mask := 0xF000, pattern := 0x2000, build := fun w => .call (nnnOf w) },
    { mnemonic := "SE_IMM", mask := 0xF000, pattern := 0x3000, build := fun w => .seImm (xOf w) (nnOf w) },
    { mnemonic := "SNE_IMM", mask := 0xF000, pattern := 0x4000, build := fun w => .sneImm (xOf w) (nnOf w) },
    { mnemonic := "SE_REG", mask := 0xF00F, pattern := 0x5000, build := fun w => .seReg (xOf w) (yOf w) },
    { mnemonic := "SNE_REG", mask := 0xF00F, pattern := 0x9000, build := fun w => .sneReg (xOf w) (yOf w) },
    { mnemonic := "LD_IMM", mask := 0xF000, pattern := 0x6000, build := fun w => .ldImm (xOf w) (nnOf w) },
    { mnemonic := "ADD_IMM", mask := 0xF000, pattern := 0x7000, build := fun w => .addImm (xOf w) (nnOf w) } ]
  ++
  [ { mnemonic := "LD_REG", mask := 0xF00F, pattern := 0x8000, build := fun w => .ldReg (xOf w) (yOf w) },
    { mnemonic := "OR", mask := 0xF00F, pattern := 0x8001, build := fun w => .orReg (xOf w) (yOf w) },
    { mnemonic := "AND", mask := 0xF00F, pattern := 0x8002, build := fun w => .andReg (xOf w) (yOf w) },
    { mnemonic := "XOR", mask := 0xF00F, pattern := 0x8003, build := fun w => .xorReg (xOf w) (yOf w) },
    { mnemonic := "ADD_REG", mask := 0xF00F, pattern := 0x8004, build := fun w => .addReg (xOf w) (yOf w) },
    { mnemonic := "SUB", mask := 0xF00F, pattern := 0x8005, build := fun w => .subReg (xOf w) (yOf w) },
    { mnemonic := "SHR", mask := 0xF00F, pattern := 0x8006, build := fun w => .shr (xOf w) (yOf w) },
    { mnemonic := "SUBN", mask := 0xF00F, pattern := 0x8007, build := fun w => .subn (xOf w) (yOf w) },
    { mnemonic := "SHL", mask := 0xF00F, pattern := 0x800E, build := fun w => .shl (xOf w) (yOf w) } ]
  ++
  [ { mnemonic := "LD_I", mask := 0xF000, pattern := 0xA000, build := fun w => .ldI (nnnOf w) },
    { mnemonic := "JP_V0", mask := 0xF000, pattern := 0xB000, build := fun w => .jpV0 (nnnOf w) },
    { mnemonic := "RND", mask := 0xF000, pattern := 0xC000, build := fun w => .rnd (xOf w) (nnOf w) },
    { mnemonic := "DRW", mask := 0xF000, pattern := 0xD000, build := fun w => .drw (xOf w) (yOf w) (nOf w) },
    { mnemonic := "ADD_I", mask := 0xF0FF, pattern := 0xF01E, build := fun w => .addI (xOf w) },
    { mnemonic := "ST_REGS", mask := 0xF0FF, pattern := 0xF055, build := fun w => .stRegs (xOf w) },
    { mnemonic := "LD_REGS", mask := 0xF0FF, pattern := 0xF065, build := fun w => .ldRegs (xOf w) } ]

/-- The 8 named Unimplemented rows of 45_unimplemented.md R182. -/
def namedUnimplementedRows : List OpcodeRow :=
  [ { mnemonic := "UNIMPL_Ex9E", mask := 0xF0FF, pattern := 0xE09E, build := fun w => .unimplEx9E (xOf w) },
    { mnemonic := "UNIMPL_ExA1", mask := 0xF0FF, pattern := 0xE0A1, build := fun w => .unimplExA1 (xOf w) },
    { mnemonic := "UNIMPL_Fx07", mask := 0xF0FF, pattern := 0xF007, build := fun w => .unimplFx07 (xOf w) },
    { mnemonic := "UNIMPL_Fx0A", mask := 0xF0FF, pattern := 0xF00A, build := fun w => .unimplFx0A (xOf w) },
    { mnemonic := "UNIMPL_Fx15", mask := 0xF0FF, pattern := 0xF015, build := fun w => .unimplFx15 (xOf w) },
    { mnemonic := "UNIMPL_Fx18", mask := 0xF0FF, pattern := 0xF018, build := fun w => .unimplFx18 (xOf w) },
    { mnemonic := "UNIMPL_Fx29", mask := 0xF0FF, pattern := 0xF029, build := fun w => .unimplFx29 (xOf w) },
    { mnemonic := "UNIMPL_Fx33", mask := 0xF0FF, pattern := 0xF033, build := fun w => .unimplFx33 (xOf w) } ]

/-- A word selects a row when the masked word is the row's pattern (R84). -/
abbrev OpcodeRow.selects (r : OpcodeRow) (w : Word) : Prop := w &&& r.mask = r.pattern

/-- The word a table row's number stands for: the table numbers bit 0 as the least significant bit of the first (and
only) word; bits from `nbits` up are 0. -/
def tableWord (nbits w : Nat) : Word := BitVec.ofNat 16 (w % 2 ^ nbits)

/-- What the decoder reads from a table word laid out as the hardware stores it, high byte first (R53). -/
def decodeTableWord (nbits w : Nat) : Option Instr :=
  match decodeBytes [hiByte (tableWord nbits w), loByte (tableWord nbits w)] with
  | .word (.instr i) _ => some i
  | _ => none

end Sys2Proof
end

