-- ==== Sys2Proof/Machine/State.lean ====
section
/-! DEFINITION. The state of the block (spec/10_state.md R20 and R36), the model's own fields beside it (the step's
outputs, the count of random draws, the parameters: notes/assumptions/2.md, 3.md, 4.md), and its value after reset
(R40). Plain data throughout. -/

namespace Sys2Proof.Machine

open Sys2Proof

/-- The 4096 bytes (20_memory.md R50), as the list of the cells that do not read as an unlisted address does, addresses
strictly rising (notes/assumptions/7.md; `Memory.wf` in Machine/Ops.lean). -/
abbrev Memory := List Host.Cell

/-- The display buffer, `Disp[cx][cy]`: 64 columns of 32 rows of Booleans (R34). -/
abbrev Display := Vector (Vector Bool 32) 64

/-- The kind of an access that was out of bounds (60_exceptions.md R201). -/
inductive AccessKind where
  | fetch
  | data
  deriving DecidableEq, Repr

/-- A fatal condition with its information (60_exceptions.md R201). -/
inductive Cause where
  /-- the fetch at PC >= 0xFFF, or ST_REGS, LD_REGS, DRW past 0xFFF; the address recorded -/
  | outOfBounds (kind : AccessKind) (address : Word)
  /-- RET with an empty stack -/
  | stackUnderflow
  /-- CALL with the stack at its bound -/
  | stackOverflow
  deriving DecidableEq, Repr

/-- The run status (R36). -/
inductive RunStatus where
  | running
  | halted (cause : Cause)
  deriving DecidableEq, Repr

/-- The diagnostic event `Unimplemented(word, pc)`: the word and the post-fetch PC (40_step_cycle.md R108). -/
structure Diag where
  word : Word
  pc : Word
  deriving DecidableEq, Repr

/-- The outputs of one step, `display_dirty` and `diag` (40_step_cycle.md R105, R107, R108). -/
structure StepOutput where
  dirty : Bool
  diag : Option Diag
  deriving DecidableEq, Repr

/-- The outputs at the start of every step (R105): `display_dirty` false, no event. -/
def StepOutput.none : StepOutput := { dirty := false, diag := Option.none }

structure State where
  /-- V0 to VF, each 8 bits (R22) -/
  v : Vector Byte 16
  /-- the index register I, 16 bits stored, 12 significant (R27) -/
  i : Word
  /-- the program counter PC (R28) -/
  pc : Word
  /-- the call stack, the head of the list on top (R31) -/
  stack : List Word
  /-- the memory (20_memory.md R50) -/
  mem : Memory
  /-- the display buffer (R34) -/
  disp : Display
  /-- the run status (R36) -/
  status : RunStatus
  /-- the model's own: the outputs of the last step (notes/assumptions/2.md) -/
  out : StepOutput
  /-- the model's own: how many random bytes have been drawn (notes/assumptions/3.md) -/
  draws : Nat
  /-- the model's own: the parameters of the block, changed by no step (notes/assumptions/4.md) -/
  cfg : Config
  deriving DecidableEq, Repr

/-- Why step answers a fault. -/
inductive Fault where
  /-- Raised by step alone, when the run status is Halted: no step is possible, only reset leaves it (R36). The fatal
  condition itself was taken by the step before, as a next state. Safe: the hardware takes no step either. -/
  | halted (cause : Cause)
  deriving DecidableEq, Repr

/-- Why exec has no meaning for an instruction. -/
inductive Refusal where
  /-- Raised by exec's arm of an instruction with no meaning yet; no arm of this model raises it. Safe. -/
  | notModelled (mnemonic : String)
  deriving DecidableEq, Repr

/-- The state after reset (R40), for any parameters: memory zero, PC 0x200, every V register 0, I 0, the stack empty,
the display all false, Running. V, I, stack and display are the spec's decision D9 (notes/assumptions/6.md); no outputs
and no draws are the model's (notes/assumptions/2.md, 3.md). -/
def State.resetWith (cfg : Config) : State where
  v := Vector.replicate 16 0
  i := 0
  pc := 0x200
  stack := []
  mem := []
  disp := Vector.replicate 64 (Vector.replicate 32 false)
  status := .running
  out := StepOutput.none
  draws := 0
  cfg := cfg

/-- The state after reset of a hardware instance, whose STACK_DEPTH is the spec's default (00_scope.md R6,
notes/assumptions/4.md). -/
def State.reset : State := State.resetWith Config.hardwareDefault

end Sys2Proof.Machine
end

