-- ==== Sys2Proof/Machine/Operands.lean ====
section
/-! DEFINITION. Operand forms and the arithmetic of results: immediates (spec/30_encoding.md R83), the 12-bit address
mask (spec/10_state.md R27), 8-bit wrap-around (R23; spec/42_register_alu.md R152), sprite coordinates and bits
(spec/44_display.md R172, R173). Sums are exact and narrowed at the end. -/

namespace Sys2Proof.Machine

open Sys2Proof

/-- VF is V[15] (10_state.md R22, R25). -/
def vf : RegIdx := 15

/-- `nnn` zero-extended to 16 bits (R83). -/
def zextAddr (nnn : Addr12) : Word := nnn.setWidth 16

/-- An address-producing expression masked to 12 bits (10_state.md R27), from its exact sum. -/
def maskAddr (sum : Nat) : Word := BitVec.ofNat 16 sum &&& addrMask

/-- The target of JP_V0: `(nnn + V[0]) & 0xFFF` (41_control_flow.md R127). -/
def indexedTarget (nnn : Addr12) (v0 : Byte) : Word := maskAddr (nnn.toNat + v0.toNat)

/-- The new I of ADD_I: `(I + V[x]) & 0xFFF` (43_index_and_memory.md R161). -/
def indexSum (i : Word) (vx : Byte) : Word := maskAddr (i.toNat + vx.toNat)

/-- `(a + b) mod 256` (42_register_alu.md R141, R146). -/
def addWrap (a b : Byte) : Byte := BitVec.ofNat 8 (a.toNat + b.toNat)

/-- `(a - b) mod 256`, that is 256 + a - b reduced (42_register_alu.md R147, R152). -/
def subWrap (a b : Byte) : Byte := BitVec.ofNat 8 (256 + a.toNat - b.toNat)

/-- `t >> 1`, logical: bit 7 becomes 0 (42_register_alu.md R148). -/
def shiftRight1 (t : Byte) : Byte := t >>> 1

/-- `(t << 1) mod 256`: bit 0 becomes 0 (42_register_alu.md R150). -/
def shiftLeft1 (t : Byte) : Byte := t <<< 1

/-- The block of `count` bytes from `base` lies in memory: no byte at all, or the last one at or below 0xFFF
(20_memory.md R58). -/
abbrev BlockFits (base count : Nat) : Prop := count = 0 ∨ base + count ≤ memSize

/-- The address that a data access out of bounds records, 0x1000 (60_exceptions.md R201). -/
def firstOutOfRange : Word := 0x1000

/-- The column of a pixel, modulo 64 (44_display.md R172). -/
def colOf (x : Nat) : Fin 64 := Fin.ofNat 64 x

/-- The row of a pixel, modulo 32 (44_display.md R172). -/
def rowOf (y : Nat) : Fin 32 := Fin.ofNat 32 y

/-- Bit `j` of a sprite byte, j = 0 the leftmost pixel: `(b >> (7 - j)) & 1` (44_display.md R171, R173). -/
def spriteBit (b : Byte) (j : Nat) : Bool := b.getLsbD (7 - j)

end Sys2Proof.Machine
end

