-- ==== Sys2Proof/Machine/Flags.lean ====
section
/-! DEFINITION. The values that the flag-writing instructions write to VF (spec/10_state.md R25). -/

namespace Sys2Proof.Machine

open Sys2Proof

/-- ADD_REG: 1 when the exact sum exceeds 255, else 0 (42_register_alu.md R146). -/
def carryFlag (a b : Byte) : Byte := if 255 < a.toNat + b.toNat then 1 else 0

/-- SUB and SUBN: 1 when the minuend `a` is strictly greater than the subtrahend `b`, else 0 (R147, R149). -/
def greaterFlag (a b : Byte) : Byte := if b.toNat < a.toNat then 1 else 0

/-- SHR: bit 0 of the value shifted, 0 or 1 (R148). -/
def lowBitFlag (t : Byte) : Byte := t &&& 1

/-- SHL: bit 7 of the value shifted where it stands, 0x80 or 0x00 (R150). -/
def highBitFlag (t : Byte) : Byte := t &&& 0x80

/-- DRW: 1 when the draw unset a set pixel, else 0 (44_display.md R171). -/
def collisionFlag (collision : Bool) : Byte := if collision then 1 else 0

end Sys2Proof.Machine
end

