-- ==== Sys2Proof/Machine/Ops.lean ====
section
/-! DEFINITION. The named operations over registers, memory, stack, display and status, each once: the pseudocode
primitives of spec/00_scope.md R8, the fetch of spec/40_step_cycle.md R101, and taking a fatal condition
(spec/60_exceptions.md R211 to R213). -/

namespace Sys2Proof.Machine

open Sys2Proof

/-! ### Memory -/

/-- What a cell that nothing has written reads as: 0x00 (10_state.md R40, 20_memory.md R61). -/
def Memory.unlisted : Byte := 0

/-- The byte at an address: the last one written, or the unlisted value (20_memory.md R61). Bounds are checked by the
instruction before it reads (R58). -/
def Memory.read : Memory → Nat → Byte
  | [], _ => Memory.unlisted
  | (k, c) :: m, a => if a = k then c else Memory.read m a

/-- Writes one byte and keeps the canonical form: writing the unlisted value removes the entry. -/
def Memory.write : Memory → Nat → Byte → Memory
  | [], a, b => if b = Memory.unlisted then [] else [(a, b)]
  | (k, c) :: m, a, b =>
    if a < k then (if b = Memory.unlisted then (k, c) :: m else (a, b) :: (k, c) :: m)
    else if a = k then (if b = Memory.unlisted then m else (a, b) :: m)
    else (k, c) :: Memory.write m a b

/-- The canonical form from address `lo` on: addresses strictly rising and below 4096, no unlisted value. -/
def Memory.wfFrom : Nat → Memory → Bool
  | _, [] => true
  | lo, (k, c) :: m =>
    decide (lo ≤ k) && decide (k < memSize) && decide (c ≠ Memory.unlisted) && Memory.wfFrom (k + 1) m

/-- The canonical form of memory (notes/assumptions/7.md). -/
def Memory.wf (m : Memory) : Bool := Memory.wfFrom 0 m

/-- Writes consecutive bytes from `base` upward, in ascending order (43_index_and_memory.md R162; 20_memory.md R64). -/
def Memory.writeBlock : Memory → Nat → List Byte → Memory
  | m, _, [] => m
  | m, base, b :: bs => Memory.writeBlock (Memory.write m base b) (base + 1) bs

/-- Reads `count` consecutive bytes from `base` upward, in ascending order. -/
def Memory.readBlock : Memory → Nat → Nat → List Byte
  | _, _, 0 => []
  | m, base, count + 1 => Memory.read m base :: Memory.readBlock m (base + 1) count

/-! ### Registers -/

/-- `V[x]` (10_state.md R22). -/
def State.getV (s : State) (x : RegIdx) : Byte := s.v[x]

/-- `V[x] <- b` (R8, R23). -/
def State.setV (s : State) (x : RegIdx) (b : Byte) : State := { s with v := s.v.set x b }

/-- The result to V[x] first, the flag to VF last (10_state.md R26; notes/assumptions/9.md). -/
def State.setResultAndFlag (s : State) (x : RegIdx) (result flag : Byte) : State :=
  (s.setV x result).setV vf flag

/-- `I <- a`; the callers pass a value already masked to 12 bits (10_state.md R27). -/
def State.setI (s : State) (a : Word) : State := { s with i := a }

/-- `pc <- target`. -/
def State.setPc (s : State) (target : Word) : State := { s with pc := target }

/-- A skip: 2 more added to the post-fetch PC, with no mask (41_control_flow.md R123). -/
def State.skip (s : State) : State := s.setPc (s.pc + 2)

/-- A skip under a condition. -/
def State.skipIf (s : State) (c : Bool) : State := if c then s.skip else s

/-- V[0] to V[count - 1], in order. -/
def State.regBlock (s : State) (count : Nat) : List Byte := s.v.toList.take count

/-- Stores V[0] to V[count - 1] at I upward (43_index_and_memory.md R162). -/
def State.storeRegs (s : State) (count : Nat) : State :=
  { s with mem := s.mem.writeBlock s.i.toNat (s.regBlock count) }

/-- Loads V[0] to V[count - 1] from I upward, in ascending order (43_index_and_memory.md R163). -/
def State.loadRegs : State → Nat → State
  | s, 0 => s
  | s, k + 1 => (State.loadRegs s k).setV (Fin.ofNat 16 k) (s.mem.read (s.i.toNat + k))

/-! ### Call stack -/

/-- `push(v)` (10_state.md R31). -/
def State.push (s : State) (a : Word) : State := { s with stack := a :: s.stack }

/-- `depth`, the number of entries (10_state.md R31). -/
def State.depth (s : State) : Nat := s.stack.length

/-- The stack holds as many entries as STACK_DEPTH allows (41_control_flow.md R122). -/
def State.stackFull (s : State) : Bool := decide (s.cfg.stackDepth = some s.depth)

/-! ### Display -/

/-- The pixel in column cx and row cy (10_state.md R34). -/
def Display.pixel (d : Display) (cx : Fin 64) (cy : Fin 32) : Bool := d[cx][cy]

/-- Sets the pixel in column cx and row cy. -/
def Display.setPixel (d : Display) (cx : Fin 64) (cy : Fin 32) (on : Bool) : Display :=
  d.set cx (d[cx].set cy on)

/-- Every pixel false (44_display.md R170). -/
def Display.blank : Display := Vector.replicate 64 (Vector.replicate 32 false)

/-- The display while a sprite is drawn, and whether a set pixel has been unset so far. -/
abbrev DrawState := Display × Bool

/-- One sprite bit on one pixel: a 1 flips it and collides if it was set; a 0 leaves it alone (44_display.md R171). -/
def DrawState.xorPixel (p : DrawState) (cx : Fin 64) (cy : Fin 32) (bit : Bool) : DrawState :=
  if bit then (p.1.setPixel cx cy (!p.1.pixel cx cy), p.2 || p.1.pixel cx cy) else p

/-- The first `count` bits of one sprite row, j ascending, at columns vx + j modulo 64 (R171, R172). -/
def DrawState.drawBits (p : DrawState) (vx : Nat) (cy : Fin 32) (b : Byte) : Nat → DrawState
  | 0 => p
  | j + 1 => (p.drawBits vx cy b j).xorPixel (colOf (vx + j)) cy (spriteBit b j)

/-- The rows of a sprite, ascending, at rows y, y + 1, ... modulo 32 (R171, R172). -/
def DrawState.drawRows : DrawState → Nat → Nat → List Byte → DrawState
  | p, _, _, [] => p
  | p, vx, y, b :: bs => (p.drawBits vx (rowOf y) b 8).drawRows vx (y + 1) bs

/-- A whole draw: the new display, and whether any set pixel was unset (R171). -/
def Display.draw (d : Display) (vx vy : Nat) (sprite : List Byte) : DrawState :=
  DrawState.drawRows (d, false) vx vy sprite

/-! ### Outputs of a step -/

/-- `display_dirty <- true` (40_step_cycle.md R107). -/
def State.markDirty (s : State) : State := { s with out := { s.out with dirty := true } }

/-- `emit Unimplemented(word, PC)`, PC the post-fetch PC (40_step_cycle.md R108; 45_unimplemented.md R180). -/
def State.emitUnimplemented (s : State) (w : Word) : State :=
  { s with out := { s.out with diag := some { word := w, pc := s.pc } } }

/-- The outputs at the start of a step: `display_dirty <- false`, no event (40_step_cycle.md R105). -/
def State.clearOutputs (s : State) : State := { s with out := StepOutput.none }

/-! ### Fatal conditions -/

/-- The run status becomes Halted with the cause (10_state.md R36). -/
def State.halt (s : State) (c : Cause) : State := { s with status := .halted c }

/-- TAKING A FATAL CONDITION (60_exceptions.md R211, R213): the status becomes Halted(cause, info) and nothing else
changes; PC stays where it is (the post-fetch value in an instruction, the fetch address in a failed fetch), there is no
handler, no vector and no saved register. It is a next state; the step after it answers a fault
(notes/assumptions/1.md). There is no return from it (R214): only reset leaves Halted. -/
def takeFatal (c : Cause) (s : State) : Host.Outcome State Fault Refusal := .next (s.halt c)

/-- The code of a condition on a hardware status output; the names are normative, the numbers are not
(60_exceptions.md R201, notes/assumptions/27.md). -/
def Cause.code : Cause → Nat
  | .outOfBounds .fetch _ => 1
  | .outOfBounds .data _ => 2
  | .stackUnderflow => 3
  | .stackOverflow => 4

/-- The code of the recoverable event Unimplemented (R201). -/
def unimplementedCode : Nat := 5

/-- The code of the loader's OutOfSpace (R201). -/
def outOfSpaceCode : Nat := 6

/-! ### Fetch -/

/-- The fetch (40_step_cycle.md R101): none when PC >= 0xFFF, before any byte is read (R102); else the big-endian word
at PC and the state with PC advanced by 2, unmasked. -/
def fetch (s : State) : Option (Word × State) :=
  if 0xFFF ≤ s.pc.toNat then none
  else some (wordOfBytes (s.mem.read s.pc.toNat) (s.mem.read (s.pc.toNat + 1)), s.setPc (s.pc + 2))

end Sys2Proof.Machine
end

