-- ==== Sys2Proof/Machine/Alu.lean ====
section
/-! DEFINITION. Register loads, arithmetic, logic, shifts and random (spec/42_register_alu.md). Operands are read from
the state before the instruction; the result is written first and the flag last (spec/10_state.md R26). -/

namespace Sys2Proof.Machine

open Sys2Proof

/-- LD_IMM (R140). -/
def execLdImm (x : RegIdx) (nn : Byte) (s : State) : Host.Outcome State Fault Refusal :=
  .next (s.setV x nn)

/-- ADD_IMM (R141): no flag. -/
def execAddImm (x : RegIdx) (nn : Byte) (s : State) : Host.Outcome State Fault Refusal :=
  .next (s.setV x (addWrap (s.getV x) nn))

/-- LD_REG (R142). -/
def execLdReg (x y : RegIdx) (s : State) : Host.Outcome State Fault Refusal :=
  .next (s.setV x (s.getV y))

/-- OR (R143): VF is written only as a destination. -/
def execOr (x y : RegIdx) (s : State) : Host.Outcome State Fault Refusal :=
  .next (s.setV x (s.getV x ||| s.getV y))

/-- AND (R144). -/
def execAnd (x y : RegIdx) (s : State) : Host.Outcome State Fault Refusal :=
  .next (s.setV x (s.getV x &&& s.getV y))

/-- XOR (R145). -/
def execXor (x y : RegIdx) (s : State) : Host.Outcome State Fault Refusal :=
  .next (s.setV x (s.getV x ^^^ s.getV y))

/-- ADD_REG (R146). -/
def execAddReg (x y : RegIdx) (s : State) : Host.Outcome State Fault Refusal :=
  .next (s.setResultAndFlag x (addWrap (s.getV x) (s.getV y)) (carryFlag (s.getV x) (s.getV y)))

/-- SUB (R147). -/
def execSub (x y : RegIdx) (s : State) : Host.Outcome State Fault Refusal :=
  .next (s.setResultAndFlag x (subWrap (s.getV x) (s.getV y)) (greaterFlag (s.getV x) (s.getV y)))

/-- SHR (R148): shifts V[y] into V[x]; the old V[x] is not used. -/
def execShr (x y : RegIdx) (s : State) : Host.Outcome State Fault Refusal :=
  .next (s.setResultAndFlag x (shiftRight1 (s.getV y)) (lowBitFlag (s.getV y)))

/-- SUBN (R149): V[y] - V[x]. -/
def execSubn (x y : RegIdx) (s : State) : Host.Outcome State Fault Refusal :=
  .next (s.setResultAndFlag x (subWrap (s.getV y) (s.getV x)) (greaterFlag (s.getV y) (s.getV x)))

/-- SHL (R150): shifts V[y] into V[x]; the flag is 0x80 or 0x00. -/
def execShl (x y : RegIdx) (s : State) : Host.Outcome State Fault Refusal :=
  .next (s.setResultAndFlag x (shiftLeft1 (s.getV y)) (highBitFlag (s.getV y)))

/-- RND with the random byte given: `V[x] <- rand & nn` (R151). -/
def rndWith (rand : Byte) (x : RegIdx) (nn : Byte) (s : State) : State := s.setV x (rand &&& nn)

/-- RND (R151): the random byte is the free value of this draw, and the draw is used up (notes/assumptions/3.md). -/
def execRnd (x : RegIdx) (nn : Byte) (s : State) : Host.Outcome State Fault Refusal :=
  .next { rndWith (Config.randomByte s.draws) x nn s with draws := s.draws + 1 }

end Sys2Proof.Machine
end

