-- ==== Sys2Proof/Machine/Control.lean ====
section
/-! DEFINITION. Control flow (spec/41_control_flow.md). In every meaning `s.pc` is the post-fetch PC. -/

namespace Sys2Proof.Machine

open Sys2Proof

/-- RET (R120): pops the stack into PC, whole; fatal StackUnderflow when it is empty. -/
def execRet (s : State) : Host.Outcome State Fault Refusal :=
  match s.stack with
  | [] => takeFatal .stackUnderflow s
  | a :: rest => .next { s with pc := a, stack := rest }

/-- JP (R121). -/
def execJp (nnn : Addr12) (s : State) : Host.Outcome State Fault Refusal :=
  .next (s.setPc (zextAddr nnn))

/-- CALL (R122): pushes the post-fetch PC, unmasked, and jumps; fatal StackOverflow at the bound, nothing pushed. -/
def execCall (nnn : Addr12) (s : State) : Host.Outcome State Fault Refusal :=
  if s.stackFull then takeFatal .stackOverflow s
  else .next ((s.push s.pc).setPc (zextAddr nnn))

/-- SE_IMM (R123). -/
def execSeImm (x : RegIdx) (nn : Byte) (s : State) : Host.Outcome State Fault Refusal :=
  .next (s.skipIf (decide (s.getV x = nn)))

/-- SNE_IMM (R124). -/
def execSneImm (x : RegIdx) (nn : Byte) (s : State) : Host.Outcome State Fault Refusal :=
  .next (s.skipIf (decide (s.getV x ≠ nn)))

/-- SE_REG (R125). -/
def execSeReg (x y : RegIdx) (s : State) : Host.Outcome State Fault Refusal :=
  .next (s.skipIf (decide (s.getV x = s.getV y)))

/-- SNE_REG (R126). -/
def execSneReg (x y : RegIdx) (s : State) : Host.Outcome State Fault Refusal :=
  .next (s.skipIf (decide (s.getV x ≠ s.getV y)))

/-- JP_V0 (R127): the sum masked to 12 bits; the offset register is always V0. -/
def execJpV0 (nnn : Addr12) (s : State) : Host.Outcome State Fault Refusal :=
  .next (s.setPc (indexedTarget nnn (s.getV 0)))

end Sys2Proof.Machine
end

