-- ==== Sys2Proof/Machine/Index.lean ====
section
/-! DEFINITION. The index register and the register block store and load (spec/43_index_and_memory.md). -/

namespace Sys2Proof.Machine

open Sys2Proof

/-- LD_I (R160). -/
def execLdI (nnn : Addr12) (s : State) : Host.Outcome State Fault Refusal :=
  .next (s.setI (zextAddr nnn))

/-- ADD_I (R161): the sum masked to 12 bits, no flag. -/
def execAddI (x : RegIdx) (s : State) : Host.Outcome State Fault Refusal :=
  .next (s.setI (indexSum s.i (s.getV x)))

/-- ST_REGS (R162): x + 1 bytes, the whole range checked before any write; I unchanged. -/
def execStRegs (x : RegIdx) (s : State) : Host.Outcome State Fault Refusal :=
  if BlockFits s.i.toNat (x.val + 1) then .next (s.storeRegs (x.val + 1))
  else takeFatal (.outOfBounds .data firstOutOfRange) s

/-- LD_REGS (R163): x + 1 bytes, the whole range checked before any write; I unchanged. -/
def execLdRegs (x : RegIdx) (s : State) : Host.Outcome State Fault Refusal :=
  if BlockFits s.i.toNat (x.val + 1) then .next (s.loadRegs (x.val + 1))
  else takeFatal (.outOfBounds .data firstOutOfRange) s

end Sys2Proof.Machine
end

