-- ==== Sys2Proof/Machine/Screen.lean ====
section
/-! DEFINITION. The display instructions CLS and DRW (spec/44_display.md). -/

namespace Sys2Proof.Machine

open Sys2Proof

/-- CLS (R170). -/
def execCls (s : State) : Host.Outcome State Fault Refusal :=
  .next { s with disp := Display.blank }.markDirty

/-- The draw of DRW, once its rows are known to lie in memory: the operands are read first, VF is written once, last, and
the display is marked dirty (R171, R175). -/
def State.drawSprite (s : State) (x y : RegIdx) (n : Nibble) : State :=
  let drawn := s.disp.draw (s.getV x).toNat (s.getV y).toNat (s.mem.readBlock s.i.toNat n.toNat)
  ({ s with disp := drawn.1 }.setV vf (collisionFlag drawn.2)).markDirty

/-- DRW (R171): fatal when a row would be read above 0xFFF, before any change; n = 0 draws no row (R174). -/
def execDrw (x y : RegIdx) (n : Nibble) (s : State) : Host.Outcome State Fault Refusal :=
  if BlockFits s.i.toNat n.toNat then .next (s.drawSprite x y n)
  else takeFatal (.outOfBounds .data firstOutOfRange) s

end Sys2Proof.Machine
end

