-- ==== Sys2Proof/Machine/Unimplemented.lean ====
section
/-! DEFINITION. Unimplemented words (spec/45_unimplemented.md): one event, no other effect, execution goes on (R180). The
eight named rows (R182) are instructions of the table and each has its own meaning; every other word is run by step
(Machine/Step.lean) through `execUnimplementedWord`. -/

namespace Sys2Proof.Machine

open Sys2Proof

/-- A word that matches no instruction row (R180): emits Unimplemented(word, post-fetch PC); nothing else changes. -/
def execUnimplementedWord (w : Word) (s : State) : Host.Outcome State Fault Refusal :=
  .next (s.emitUnimplemented w)

/-- Ex9E (R182): acts as R180 says. -/
def execUnimplEx9E (x : RegIdx) (s : State) : Host.Outcome State Fault Refusal :=
  execUnimplementedWord (encode (.unimplEx9E x)) s

/-- ExA1 (R182): acts as R180 says. -/
def execUnimplExA1 (x : RegIdx) (s : State) : Host.Outcome State Fault Refusal :=
  execUnimplementedWord (encode (.unimplExA1 x)) s

/-- Fx07 (R182): acts as R180 says. -/
def execUnimplFx07 (x : RegIdx) (s : State) : Host.Outcome State Fault Refusal :=
  execUnimplementedWord (encode (.unimplFx07 x)) s

/-- Fx0A (R182): acts as R180 says. -/
def execUnimplFx0A (x : RegIdx) (s : State) : Host.Outcome State Fault Refusal :=
  execUnimplementedWord (encode (.unimplFx0A x)) s

/-- Fx15 (R182): acts as R180 says. -/
def execUnimplFx15 (x : RegIdx) (s : State) : Host.Outcome State Fault Refusal :=
  execUnimplementedWord (encode (.unimplFx15 x)) s

/-- Fx18 (R182): acts as R180 says. -/
def execUnimplFx18 (x : RegIdx) (s : State) : Host.Outcome State Fault Refusal :=
  execUnimplementedWord (encode (.unimplFx18 x)) s

/-- Fx29 (R182): acts as R180 says. -/
def execUnimplFx29 (x : RegIdx) (s : State) : Host.Outcome State Fault Refusal :=
  execUnimplementedWord (encode (.unimplFx29 x)) s

/-- Fx33 (R182): acts as R180 says. -/
def execUnimplFx33 (x : RegIdx) (s : State) : Host.Outcome State Fault Refusal :=
  execUnimplementedWord (encode (.unimplFx33 x)) s

end Sys2Proof.Machine
end

