-- ==== Sys2Proof/Machine/Step.lean ====
section
/-! DEFINITION. The step: fetch, decode, execute (spec/40_step_cycle.md R105). -/

namespace Sys2Proof.Machine

open Sys2Proof

/-- Execute what the decoder made of the fetched word (R104): the row's rule, or R180 when no row matches. -/
def execDecoded (d : Decoded) (s : State) : Host.Outcome State Fault Refusal :=
  match d with
  | .instr i => exec i s
  | .unimplemented w => execUnimplementedWord w s

/-- One step (R105). In Halted no step is possible (10_state.md R36). The outputs start cleared; a failed fetch is taken
with PC at the fetch address (R102); else the decoded word is executed at the state the fetch left. -/
def step (s : State) : Host.Outcome State Fault Refusal :=
  match s.status with
  | .halted c => .fault (.halted c)
  | .running =>
    match fetch s.clearOutputs with
    | none => takeFatal (.outOfBounds .fetch s.pc) s.clearOutputs
    | some (w, t) => execDecoded (decode w) t

/-- Stores a word where step fetches its next instruction, high byte first (20_memory.md R53). A fetch needs the status
Running and PC at most 0xFFE; where they are not so they are set (Running, 0x200); they are so at reset
(notes/assumptions/28.md). -/
def State.withFetchWord (s : State) (nbits w : Nat) : State :=
  let at0 : Word := if s.pc.toNat < 0xFFF then s.pc else BitVec.ofNat 16 programBase
  { s with
    status := .running
    pc := at0
    mem := s.mem.writeBlock at0.toNat [hiByte (tableWord nbits w), loByte (tableWord nbits w)] }

end Sys2Proof.Machine
end

