-- ==== Sys2Proof/Machine/Session.lean ====
section
/-! DEFINITION. The host's operations on the block and when each is allowed (spec/40_step_cycle.md R111;
spec/20_memory.md R64 to R66; spec/70_reset_and_hazards.md R230 to R233). The step function does not use this file. -/

namespace Sys2Proof.Machine

open Sys2Proof

/-- What `load` gives: the state, or OutOfSpace with nothing loaded (20_memory.md R64, R65). -/
inductive LoadResult where
  | ok (s : State)
  | outOfSpace
  deriving DecidableEq, Repr

/-- `load(bytes)`: copies `bytes[i]` to 0x200 + i for all i; an image of more than 3584 bytes fails, and nothing is
loaded (R64, R65). -/
def State.load (s : State) (bytes : List Byte) : LoadResult :=
  if imageOk bytes then .ok { s with mem := s.mem.writeBlock programBase bytes } else .outOfSpace

/-- Where the host stands in the boot order (70_reset_and_hazards.md R233). -/
inductive Phase where
  /-- after reset, before a load -/
  | fresh
  /-- after a successful load -/
  | loaded
  /-- after a load that failed: the core is not started -/
  | loadFailed
  /-- after the host has stopped the run of a loaded image -/
  | stopped
  deriving DecidableEq, Repr

/-- The block and where the host stands with it. -/
structure Session where
  state : State
  phase : Phase
  deriving DecidableEq, Repr

/-- The host's moves (R111). Reading the display or the status has no effect and is a function of the state. The input
`rand` of a step is the free value of the next draw (notes/assumptions/3.md). -/
inductive HostMove where
  | reset
  | load (bytes : List Byte)
  | step
  | stop
  deriving DecidableEq, Repr

/-- The outcome of a step (00_scope.md R9). -/
inductive StepOutcome where
  | ok (displayDirty : Bool) (diag : Option Diag)
  | fatal (cause : Cause)
  deriving DecidableEq, Repr

/-- The result of a host move (R111). -/
inductive HostReply where
  | none
  | loadOk
  | outOfSpace
  | stepped (o : StepOutcome)
  deriving DecidableEq, Repr

/-- The outcome of the step that led to this state (00_scope.md R9; 40_step_cycle.md R105). -/
def State.outcome (s : State) : StepOutcome :=
  match s.status with
  | .running => .ok s.out.dirty s.out.diag
  | .halted c => .fatal c

/-- `reset` by the host (70_reset_and_hazards.md R230): every piece of the block's state at its reset value. The count of
draws is not the block's state but the place in the host's supply of random bytes, which a reset does not rewind: a byte
drawn after it is drawn afresh (40_step_cycle.md R106, notes/assumptions/3.md). -/
def State.hostReset (s : State) : State := { State.resetWith s.cfg with draws := s.draws }

/-- What a stop leaves: the run of a loaded image is over, and where there is no run nothing changes
(40_step_cycle.md R111, R112). -/
def Phase.stop : Phase → Phase
  | .fresh => .fresh
  | .loaded => .stopped
  | .loadFailed => .loadFailed
  | .stopped => .stopped

/-- One move of the host: none when the host has no such move there (R111: a load only once, after reset and before the
first step, 20_memory.md R66; a step only after a successful load, while Running, and not after a stop). -/
def Session.move (q : Session) : HostMove → Option (HostReply × Session)
  | .reset => some (.none, { state := q.state.hostReset, phase := .fresh })
  | .load bytes =>
    match q.phase with
    | .fresh =>
      match q.state.load bytes with
      | .ok s => some (.loadOk, { state := s, phase := .loaded })
      | .outOfSpace => some (.outOfSpace, { q with phase := .loadFailed })
    | .loaded => Option.none
    | .loadFailed => Option.none
    | .stopped => Option.none
  | .step =>
    match q.phase with
    | .loaded =>
      match Sys2Proof.Machine.step q.state with
      | .next s => some (.stepped s.outcome, { q with state := s })
      | .fault _ => Option.none
      | .refused _ => Option.none
    | .fresh => Option.none
    | .loadFailed => Option.none
    | .stopped => Option.none
  | .stop => some (.none, { q with phase := q.phase.stop })

/-- The block when the host first meets it: just reset (70_reset_and_hazards.md R230). -/
def Session.start (cfg : Config) : Session := { state := State.resetWith cfg, phase := .fresh }

/-- Reading the display: the pixel at (cx, cy) (40_step_cycle.md R109). -/
def State.readDisplay (s : State) (cx : Fin 64) (cy : Fin 32) : Bool := s.disp.pixel cx cy

/-- Reading the run status (R109, R111). -/
def State.readStatus (s : State) : RunStatus := s.status

end Sys2Proof.Machine
end

