-- ==== Sys2Proof/Machine/Run.lean ====
section
/-! DEFINITION. A run and its end (spec/40_step_cycle.md R112). A run is the sequence of steps from the first step after a
load. The block ends it only by a fatal step; the host ends it by the move `stop` (Machine/Session.lean). The end of a run
that the host does not stop is, explicitly, its first state that is Halted or whose next instruction is a jump to its own
address (notes/assumptions/29.md). The step function does not use this file. -/

namespace Sys2Proof.Machine

open Sys2Proof

/-- `k` steps lead from `s` to `t`. -/
inductive StepsTo : Nat → State → State → Prop where
  | refl (s : State) : StepsTo 0 s s
  | tail (k : Nat) (s t u : State) (h : StepsTo k s t) (hs : step t = .next u) : StepsTo (k + 1) s u

/-- The next instruction is a jump to its own address (30_encoding.md R93; R112). -/
def State.atSelfJump (s : State) : Bool :=
  match fetch s with
  | none => false
  | some (w, _) =>
    match decode w with
    | .instr (.jp nnn) => decide (zextAddr nnn = s.pc)
    | _ => false

/-- How a run ended, without the host stopping it (R112). -/
inductive RunEnd where
  /-- a step returned Fatal(cause) and the status is Halted -/
  | fatal (cause : Cause)
  /-- the program has finished its work and spins: the end state of spec/95_test_vectors.md -/
  | selfJump
  deriving DecidableEq, Repr

/-- The end that a state is, if it is one. -/
def State.runEnd (s : State) : Option RunEnd :=
  match s.status with
  | .halted c => some (.fatal c)
  | .running => if s.atSelfJump then some .selfJump else none

/-- What starts a run: the parameters of the block, the image loaded after reset, and how many random bytes the host had
supplied before. -/
structure RunStart where
  cfg : Config
  image : List Byte
  draws : Nat
  deriving DecidableEq, Repr

/-- The load that a run starts from, on the block just reset. -/
def RunStart.load (r : RunStart) : LoadResult := State.load { State.resetWith r.cfg with draws := r.draws } r.image

/-- `s` is the state of the run after `k` steps (R112). An image that does not load has no run (20_memory.md R65). -/
def RunStart.reaches (r : RunStart) (k : Nat) (s : State) : Prop := ∃ s0, r.load = .ok s0 ∧ StepsTo k s0 s

/-- The run ends after `k` steps in the state `s`, by `e`: no state of it before was an end (R112). -/
def RunStart.endsAt (r : RunStart) (k : Nat) (s : State) (e : RunEnd) : Prop :=
  r.reaches k s ∧ s.runEnd = some e ∧ ∀ j, j < k → ∀ t, r.reaches j t → t.runEnd = none

end Sys2Proof.Machine
end

