-- ==== Sys2Proof/Safety.lean ====
section
/-! DEFINITION. The terms that claims use: what is unchanged between two states, what a sprite covers, the invariant of
the machine (spec/10_state.md R27, R29, R32; spec/60_exceptions.md R201), the sessions a host can reach
(spec/40_step_cycle.md R111), and a safe run. -/

namespace Sys2Proof.Machine

open Sys2Proof

/-- The parts of the state besides the V registers and the parameters. -/
inductive Part where
  | i
  | pc
  | stack
  | mem
  | disp
  | status
  | dirty
  | diag
  | draws
  deriving DecidableEq, Repr

/-- Every V register but those listed is unchanged. -/
def SameRegsBut (xs : List RegIdx) (s t : State) : Prop := ∀ r, r ∉ xs → t.getV r = s.getV r

/-- Every byte of memory reads as before. -/
def SameMem (s t : State) : Prop := ∀ a, t.mem.read a = s.mem.read a

/-- Every pixel is as before. -/
def SameDisp (s t : State) : Prop := ∀ cx cy, t.disp.pixel cx cy = s.disp.pixel cx cy

/-- From `s` to `t` nothing has changed but the V registers `xs` and the parts `ps`; the parameters never change. -/
def Unchanged (xs : List RegIdx) (ps : List Part) (s t : State) : Prop :=
  SameRegsBut xs s t ∧
  (Part.i ∉ ps → t.i = s.i) ∧
  (Part.pc ∉ ps → t.pc = s.pc) ∧
  (Part.stack ∉ ps → t.stack = s.stack) ∧
  (Part.mem ∉ ps → SameMem s t) ∧
  (Part.disp ∉ ps → SameDisp s t) ∧
  (Part.status ∉ ps → t.status = s.status) ∧
  (Part.dirty ∉ ps → t.out.dirty = s.out.dirty) ∧
  (Part.diag ∉ ps → t.out.diag = s.out.diag) ∧
  (Part.draws ∉ ps → t.draws = s.draws) ∧
  t.cfg = s.cfg

/-- A sprite of `n` rows at I, drawn at (V[x], V[y]), has a bit of 1 on the pixel (cx, cy): some row and some bit j of it
land there, j = 0 being bit 7 of the byte (44_display.md R171 to R173). -/
def SpriteCovers (s : State) (x y : RegIdx) (n : Nibble) (cx : Fin 64) (cy : Fin 32) : Prop :=
  ∃ row j, row < n.toNat ∧ j < 8 ∧
    cx.val = ((s.getV x).toNat + j) % 64 ∧ cy.val = ((s.getV y).toNat + row) % 32 ∧
    (s.mem.read (s.i.toNat + row)).toNat / 2 ^ (7 - j) % 2 = 1

/-- Executing `i` at `s` answers a next state, of which `P` holds. -/
def Completes (i : Instr) (s : State) (P : State → Prop) : Prop := ∃ t, exec i s = .next t ∧ P t

/-- Every word that the mask and pattern of a row select decodes to the instruction that `f` reads from it
(30_encoding.md R84). -/
def Selected (mask pattern : Word) (f : Word → Instr) : Prop := ∀ w : Word, w &&& mask = pattern → decode w = .instr (f w)

/-- The word that the fetch assembles at the state's PC, as a number: the byte at PC is the high one (20_memory.md R53). -/
def State.wordAtPc (s : State) : Nat := (s.mem.read s.pc.toNat).toNat * 256 + (s.mem.read (s.pc.toNat + 1)).toNat

/-- V0 to V[x]. -/
def regsUpTo (x : RegIdx) : List RegIdx := (List.finRange 16).filter (fun r => decide (r ≤ x))

/-- The V registers that an instruction may write (10_state.md R24): its destination, VF as a flag, V0 to V[x] for
LD_REGS. -/
def writesRegs : Instr → List RegIdx
  | .ldImm x _ => [x]
  | .addImm x _ => [x]
  | .ldReg x _ => [x]
  | .orReg x _ => [x]
  | .andReg x _ => [x]
  | .xorReg x _ => [x]
  | .addReg x _ => [x, vf]
  | .subReg x _ => [x, vf]
  | .shr x _ => [x, vf]
  | .subn x _ => [x, vf]
  | .shl x _ => [x, vf]
  | .rnd x _ => [x]
  | .drw _ _ _ => [vf]
  | .ldRegs x => regsUpTo x
  | _ => []

/-- The instruction is a DRW that draws at `s`, and its sprite has a bit of 1 on the pixel (44_display.md R171). -/
def DrawsOn (i : Instr) (s : State) (cx : Fin 64) (cy : Fin 32) : Prop :=
  ∃ x y n, i = .drw x y n ∧ BlockFits s.i.toNat n.toNat ∧ SpriteCovers s x y n cx cy

/-- Executing the instructions of a list one after the other leads from a state to a state, and `k` of them drew a bit of
1 on the pixel. -/
inductive DrawnOn (cx : Fin 64) (cy : Fin 32) : List Instr → State → Nat → State → Prop where
  | nil (s : State) : DrawnOn cx cy [] s 0 s
  | hit (i : Instr) (is : List Instr) (s t u : State) (k : Nat) (h : exec i s = .next t) (hd : DrawsOn i s cx cy)
      (hr : DrawnOn cx cy is t k u) : DrawnOn cx cy (i :: is) s (k + 1) u
  | miss (i : Instr) (is : List Instr) (s t u : State) (k : Nat) (h : exec i s = .next t) (hd : ¬ DrawsOn i s cx cy)
      (hr : DrawnOn cx cy is t k u) : DrawnOn cx cy (i :: is) s k u

/-- The instruction raises the fatal condition at the state (60_exceptions.md R203 to R205, R208). -/
def Raises (i : Instr) (s : State) (c : Cause) : Prop :=
  i = .ret ∧ s.stack = [] ∧ c = .stackUnderflow ∨
  (∃ nnn, i = .call nnn) ∧ s.cfg.stackDepth = some s.stack.length ∧ c = .stackOverflow ∨
  (∃ x : RegIdx, (i = .stRegs x ∨ i = .ldRegs x) ∧ 0xFFF < s.i.toNat + x.val) ∧ c = .outOfBounds .data 0x1000 ∨
  (∃ (x y : RegIdx) (n : Nibble), i = .drw x y n ∧ 1 ≤ n.toNat ∧ 0xFFF < s.i.toNat + n.toNat - 1) ∧
    c = .outOfBounds .data 0x1000

/-- The information that a fatal condition can record (60_exceptions.md R201). -/
def Cause.ok (cfg : Config) : Cause → Prop
  | .outOfBounds .fetch a => 0xFFF ≤ a.toNat ∧ a.toNat ≤ 0x1002
  | .outOfBounds .data a => a = 0x1000
  | .stackUnderflow => True
  | .stackOverflow => cfg.stackDepth ≠ none

/-- The invariant of the machine. -/
structure State.Inv (s : State) : Prop where
  /-- memory keeps its canonical form (notes/assumptions/7.md) -/
  mem : s.mem.wf = true
  /-- bits 15 to 12 of I are zero (10_state.md R27) -/
  index : s.i.toNat ≤ 0xFFF
  /-- PC is in 0x000..0x1002 (10_state.md R29) -/
  pc : s.pc.toNat ≤ 0x1002
  /-- a stack entry is a post-fetch PC, in 0x002..0x1000 (10_state.md R29) -/
  stack : ∀ a ∈ s.stack, 2 ≤ a.toNat ∧ a.toNat ≤ 0x1000
  /-- the stack does not outgrow STACK_DEPTH, which is at least 1 (00_scope.md R6, 10_state.md R32) -/
  depth : ∀ d, s.cfg.stackDepth = some d → 1 ≤ d ∧ s.depth ≤ d
  /-- a halted machine records what its cause can record (60_exceptions.md R201) -/
  cause : ∀ c, s.status = .halted c → c.ok s.cfg

/-- The sessions that the host's moves can reach from a fresh block, for legal parameters (40_step_cycle.md R111). -/
inductive Session.Reachable : Session → Prop where
  | start (cfg : Config) (h : cfg.wf = true) : Session.Reachable (Session.start cfg)
  | move (q q' : Session) (m : HostMove) (r : HostReply) (hq : Session.Reachable q)
      (h : q.move m = some (r, q')) : Session.Reachable q'

/-- A run of `k` steps is safe when no state on it is halted: no step of it was fatal (60_exceptions.md R200, R211). -/
def SafeRun (k : Nat) (s : State) : Prop := ∀ j, j ≤ k → ∀ t, StepsTo j s t → t.status = .running

end Sys2Proof.Machine
end

