-- ==== Sys2Proof/Certificates/Slice0/Obligations.lean ====
section
/-! DEFINITION. The statements for the provers, each from the rules of spec/ that its docstring names. -/

open Sys2Proof Sys2Proof.Machine

/-- Decoding an encoded instruction gives it back. No bit of an encoding is dropped (30_encoding.md R82, R84;
20_memory.md R53). Every `Instr` is well-formed by its types. -/
def Obligations.DecodeOfEncodeIsTheInstruction : Prop :=
  ∀ i : Instr, decode (encode i) = .instr i ∧
    decodeBytes [hiByte (encode i), loByte (encode i)] = .word (.instr i) []

/-- Each word has one meaning: encoding a decoded word gives the word back. No two words mean one instruction
(30_encoding.md R84), and a rejected word is named whole (R87). -/
def Obligations.EncodeOfDecodeIsTheWord : Prop :=
  ∀ w : Word, (∀ i, decode w = .instr i → encode i = w) ∧ (∀ v, decode w = .unimplemented v → v = w)

/-- The decoder is the opcode table: rows by mask and pattern, pairwise disjoint, no match is Unimplemented.
30_encoding.md R84. The table is `instructionRows`, which the decoder does not read: it dispatches on nibbles. That
every written digit of a pattern must match is the spec's decision D11 (notes/assumptions/15.md), and that the eight
named rows are instructions of their own is the model's reading (notes/assumptions/16.md). -/
def Obligations.DecoderAgreesWithOpcodeTable : Prop :=
  (∀ r ∈ instructionRows, ∀ w : Word, w &&& r.mask = r.pattern → decode w = .instr (r.build w)) ∧
  (∀ r ∈ instructionRows, ∀ r' ∈ instructionRows, ∀ w : Word,
    w &&& r.mask = r.pattern → w &&& r'.mask = r'.pattern → r.mnemonic = r'.mnemonic) ∧
  (∀ w : Word, (∀ r ∈ instructionRows, w &&& r.mask ≠ r.pattern) →
    decode w = .unimplemented w ∨ ∃ r ∈ namedUnimplementedRows, w &&& r.mask = r.pattern ∧ decode w = .instr (r.build w))

/-- The fields of an instruction word are its fixed bit ranges. 30_encoding.md R81, with quotients and remainders in
place of bit masks. -/
def Obligations.FieldsAreFixedBitRanges : Prop :=
  ∀ w : Word, (catOf w).toNat = w.toNat / 0x1000 ∧ (xOf w).val = w.toNat / 0x100 % 0x10 ∧
    (yOf w).val = w.toNat / 0x10 % 0x10 ∧ (nOf w).toNat = w.toNat % 0x10 ∧
    (nnOf w).toNat = w.toNat % 0x100 ∧ (nnnOf w).toNat = w.toNat % 0x1000 ∧
    (nnOf w).toNat = (yOf w).val * 0x10 + (nOf w).toNat ∧
    (nnnOf w).toNat = (xOf w).val * 0x100 + (nnOf w).toNat

/-- Every word of the classes that R183 lists is rejected by name as Unimplemented. 30_encoding.md R85, R88;
45_unimplemented.md R183. That unlisted nibbles are checked is the spec's own decision (R85: "This spec reads every
hexadecimal digit that the document writes in a pattern as a bit that must match"), notes/assumptions/15.md. -/
def Obligations.WordsOutsideTheTableAreRejected : Prop :=
  ∀ w : Word,
    (w.toNat / 0x1000 = 0 ∧ w ≠ 0x00E0 ∧ w ≠ 0x00EE ∨
     w.toNat / 0x1000 = 5 ∧ w.toNat % 0x10 ≠ 0 ∨
     w.toNat / 0x1000 = 9 ∧ w.toNat % 0x10 ≠ 0 ∨
     w.toNat / 0x1000 = 8 ∧ (8 ≤ w.toNat % 0x10 ∧ w.toNat % 0x10 ≤ 0xD ∨ w.toNat % 0x10 = 0xF) ∨
     w.toNat / 0x1000 = 0xE ∧ w.toNat % 0x100 ≠ 0x9E ∧ w.toNat % 0x100 ≠ 0xA1 ∨
     w.toNat / 0x1000 = 0xF ∧ w.toNat % 0x100 ∉ [0x1E, 0x55, 0x65, 0x07, 0x0A, 0x15, 0x18, 0x29, 0x33]) →
    decode w = .unimplemented w

/-- Some words written out from the patterns decode to the instructions they stand for. A sanity statement: words and
readings of 95_test_vectors.md (S1, S9, P1 to P7, T2.19). That 5121 (T2.19) is no SE_REG rests on the spec's decision
D11 (notes/assumptions/15.md). -/
def Obligations.WrittenOutWordsDecode : Prop :=
  decode 0x6005 = .instr (.ldImm 0 0x05) ∧ decode 0x8014 = .instr (.addReg 0 1) ∧
  decode 0x1234 = .instr (.jp 0x234) ∧ decode 0x220E = .instr (.call 0x20E) ∧ decode 0x00EE = .instr .ret ∧
  decode 0xA300 = .instr (.ldI 0x300) ∧ decode 0xF155 = .instr (.stRegs 1) ∧ decode 0xD012 = .instr (.drw 0 1 2) ∧
  decode 0xC001 = .instr (.rnd 0 1) ∧ decode 0xB206 = .instr (.jpV0 0x206) ∧ decode 0x3000 = .instr (.seImm 0 0) ∧
  decode 0x5121 = .unimplemented 0x5121

/-- A step runs the decoded instruction, with PC advanced by 2 and the outputs cleared. 40_step_cycle.md R101, R103,
R104, R105. `clearOutputs` and `setPc` are all that step adds around exec; that the outputs stand in State is the
model's (notes/assumptions/2.md). PC plus 2 is unmasked, the spec's decision D14 (notes/assumptions/19.md). -/
def Obligations.StepExecutesTheDecodedInstruction : Prop :=
  ∀ (s : State) (i : Instr), s.status = .running → s.pc.toNat ≤ 0xFFE →
    decodeBytes [s.mem.read s.pc.toNat, s.mem.read (s.pc.toNat + 1)] = .word (.instr i) [] →
    step s = exec i (s.clearOutputs.setPc (s.pc + 2)) ∧ (s.pc + 2).toNat = s.pc.toNat + 2

/-- A word that matches no instruction row: one event, PC + 2, nothing else. 45_unimplemented.md R180, for the eight
named rows of R182 and for every other word. The event is the output `out.diag` (notes/assumptions/2.md). That the
event holds the post-fetch PC is the spec's decision D15 (notes/assumptions/17.md); which words match no row rests on
D11 (notes/assumptions/15.md). -/
def Obligations.StepPassesOverUnimplementedWords : Prop :=
  ∀ s : State, s.status = .running → s.pc.toNat ≤ 0xFFE →
    (∀ r ∈ instructionRows, BitVec.ofNat 16 s.wordAtPc &&& r.mask ≠ r.pattern) →
    ∃ t, step s = .next t ∧ t.pc.toNat = s.pc.toNat + 2 ∧
      t.out.diag = some { word := BitVec.ofNat 16 s.wordAtPc, pc := s.pc + 2 } ∧ t.out.dirty = false ∧
      Unchanged [] [.pc, .dirty, .diag] s t

/-- A fetch at PC >= 0xFFF is fatal, PC not advanced, no instruction executed. 40_step_cycle.md R102; the fatal step
is a next state whose status is Halted (notes/assumptions/1.md). The state that it leaves is the spec's decision D16
(notes/assumptions/11.md); the cleared outputs are the model's (notes/assumptions/2.md). -/
def Obligations.FetchOutOfBoundsHaltsTheCore : Prop :=
  ∀ s : State, s.status = .running → 0xFFF ≤ s.pc.toNat →
    ∃ t, step s = .next t ∧ t.status = .halted (.outOfBounds .fetch s.pc) ∧ t.out = StepOutput.none ∧
      Unchanged [] [.status, .dirty, .diag] s t

/-- The fetch reads two bytes at PC, high byte first, at any alignment, and advances PC by 2. 40_step_cycle.md R101;
20_memory.md R53, R55, R56. No alignment and no mask are the spec's decisions D13 and D14 (notes/assumptions/19.md).
-/
def Obligations.FetchReadsTheBigEndianWord : Prop :=
  ∀ s : State,
    (s.pc.toNat ≤ 0xFFE → ∃ w t, fetch s = some (w, t) ∧ w.toNat = s.wordAtPc ∧ t.pc.toNat = s.pc.toNat + 2 ∧
      Unchanged [] [.pc] s t) ∧
    (0xFFF ≤ s.pc.toNat → fetch s = none)

/-- A step answers a next state exactly when the status is Running; in Halted it faults with the cause. 10_state.md
R36 ("In `Halted` no step is possible; only reset leaves it", a sentence the spec marks as its decision D16);
notes/assumptions/1.md. The cause recorded is notes/assumptions/11.md. -/
def Obligations.StepIsPossibleExactlyWhenRunning : Prop :=
  ∀ s : State, ((∃ t, step s = .next t) ↔ s.status = .running) ∧
    (∀ c, s.status = .halted c → step s = .fault (.halted c))

/-- RET pops the stack into PC; with an empty stack it is the fatal StackUnderflow. 41_control_flow.md R120; the fatal
condition is a next state (notes/assumptions/1.md). The popped value unmasked, and so the fatal fetch at 0x1000, is
the spec's decision D14 (notes/assumptions/19.md); the state that the fatal RET leaves is D16
(notes/assumptions/11.md). -/
def Obligations.RetPopsTheReturnAddress : Prop :=
  Selected 0xFFFF 0x00EE (fun _ => .ret) ∧
  (∀ (s : State) (a : Word) (rest : List Word), s.stack = a :: rest →
    Completes .ret s (fun t => t.pc = a ∧ t.stack = rest ∧ Unchanged [] [.pc, .stack] s t)) ∧
  (∀ s : State, s.stack = [] →
    Completes .ret s (fun t => t.status = .halted .stackUnderflow ∧ Unchanged [] [.status] s t)) ∧
  (∀ (s : State) (rest : List Word), s.status = .running → s.stack = 0x1000 :: rest →
    Completes .ret s (fun t => Sys2Proof.Machine.step t =
      .next (t.clearOutputs.halt (.outOfBounds .fetch 0x1000))))

/-- JP: PC := nnn, any target, nothing else changed; a jump to itself idles. 41_control_flow.md R121. Odd and low
targets are the spec's decisions D13 and D12 (notes/assumptions/19.md, notes/assumptions/20.md); the outputs of the
idle step are the model's (notes/assumptions/2.md), the fatal next step is notes/assumptions/1.md,
notes/assumptions/11.md. -/
def Obligations.JpSetsPcToTheTarget : Prop :=
  Selected 0xF000 0x1000 (fun w => .jp (nnnOf w)) ∧
  (∀ (nnn : Addr12) (s : State),
    Completes (.jp nnn) s (fun t => t.pc.toNat = nnn.toNat ∧ Unchanged [] [.pc] s t)) ∧
  (∀ s : State, s.status = .running → s.pc.toNat ≤ 0xFFE → s.wordAtPc = 0x1000 + s.pc.toNat →
    step s = .next s.clearOutputs) ∧
  (∀ s : State, s.status = .running →
    Completes (.jp 0xFFF) s (fun t => Sys2Proof.Machine.step t =
      .next (t.clearOutputs.halt (.outOfBounds .fetch 0xFFF))))

/-- CALL pushes the post-fetch PC and jumps; at the bound it is the fatal StackOverflow. 41_control_flow.md R122, for
every STACK_DEPTH (`s.cfg.stackDepth`, notes/assumptions/4.md). The pushed value unmasked is the spec's decision D31
(notes/assumptions/19.md); the test for equality with the bound is R122's text, read literally
(notes/assumptions/5.md); the halted state is notes/assumptions/1.md, notes/assumptions/11.md. -/
def Obligations.CallPushesThePostFetchPc : Prop :=
  Selected 0xF000 0x2000 (fun w => .call (nnnOf w)) ∧
  (∀ (nnn : Addr12) (s : State), s.cfg.stackDepth ≠ some s.stack.length →
    Completes (.call nnn) s (fun t => t.stack = s.pc :: s.stack ∧ t.pc.toNat = nnn.toNat ∧
      Unchanged [] [.pc, .stack] s t)) ∧
  (∀ (nnn : Addr12) (s : State), s.cfg.stackDepth = some s.stack.length →
    Completes (.call nnn) s (fun t => t.status = .halted .stackOverflow ∧ Unchanged [] [.status] s t)) ∧
  (∀ (s : State) (k : Nat), s.status = .running → s.pc.toNat ≤ 0xFFE → s.wordAtPc = 0x2000 + s.pc.toNat →
    s.cfg.stackDepth = some (s.stack.length + k) →
    ∃ t, StepsTo (k + 1) s t ∧ t.status = .halted .stackOverflow ∧
      t.stack = List.replicate k (s.pc + 2) ++ s.stack)

/-- SE_IMM, SNE_IMM, SE_REG, SNE_REG: PC += 2 exactly under the condition, nothing else changed. 41_control_flow.md
R123 to R126. The sum is the plain 16-bit one, unmasked. That it is unmasked is the spec's decision D14
(notes/assumptions/19.md), that 5xyN and 9xyN are Unimplemented is D11 (notes/assumptions/15.md), and the fatal next
step is notes/assumptions/1.md, notes/assumptions/11.md. -/
def Obligations.SkipsAddTwoUnderTheirCondition : Prop :=
  Selected 0xF000 0x3000 (fun w => .seImm (xOf w) (nnOf w)) ∧ Selected 0xF000 0x4000 (fun w => .sneImm (xOf w) (nnOf w)) ∧
  Selected 0xF00F 0x5000 (fun w => .seReg (xOf w) (yOf w)) ∧ Selected 0xF00F 0x9000 (fun w => .sneReg (xOf w) (yOf w)) ∧
  (∀ (x : RegIdx) (nn : Byte) (s : State),
    Completes (.seImm x nn) s (fun t =>
      t.pc = (if s.getV x = nn then s.pc + 2 else s.pc) ∧ Unchanged [] [.pc] s t) ∧
    Completes (.sneImm x nn) s (fun t =>
      t.pc = (if s.getV x = nn then s.pc else s.pc + 2) ∧ Unchanged [] [.pc] s t)) ∧
  (∀ (x y : RegIdx) (s : State),
    Completes (.seReg x y) s (fun t =>
      t.pc = (if s.getV x = s.getV y then s.pc + 2 else s.pc) ∧ Unchanged [] [.pc] s t) ∧
    Completes (.sneReg x y) s (fun t =>
      t.pc = (if s.getV x = s.getV y then s.pc else s.pc + 2) ∧ Unchanged [] [.pc] s t)) ∧
  (∀ w : Word, w.toNat / 0x1000 = 5 ∨ w.toNat / 0x1000 = 9 → w.toNat % 0x10 ≠ 0 → decode w = .unimplemented w) ∧
  (∀ (i : Instr) (s : State), s.status = .running → s.pc = 0x1000 →
    ((∃ x nn, i = .seImm x nn ∧ s.getV x = nn) ∨ (∃ x nn, i = .sneImm x nn ∧ s.getV x ≠ nn) ∨
      (∃ x y, i = .seReg x y ∧ s.getV x = s.getV y) ∨ (∃ x y, i = .sneReg x y ∧ s.getV x ≠ s.getV y)) →
    Completes i s (fun t => t.pc = 0x1002 ∧ Sys2Proof.Machine.step t =
      .next (t.clearOutputs.halt (.outOfBounds .fetch 0x1002))))

/-- JP_V0: PC := (nnn + V0) mod 0x1000, nothing else changed. 41_control_flow.md R127; that the sum is masked is the
spec's decision D1 (notes/assumptions/8.md). -/
def Obligations.JpV0MasksTheSum : Prop :=
  Selected 0xF000 0xB000 (fun w => .jpV0 (nnnOf w)) ∧
  (∀ (nnn : Addr12) (s : State),
    Completes (.jpV0 nnn) s (fun t => t.pc.toNat = (nnn.toNat + (s.getV 0).toNat) % 0x1000 ∧ Unchanged [] [.pc] s t))

/-- CALL followed by RET restores PC to the instruction after the CALL, and the stack. The document's round-trip
property (95_test_vectors.md S7), from 41_control_flow.md R120 and R122. The address pushed and popped is unmasked
(notes/assumptions/19.md). -/
def Obligations.CallThenRetReturnsAfterTheCall : Prop :=
  ∀ (nnn : Addr12) (s : State), s.cfg.stackDepth ≠ some s.stack.length →
    Completes (.call nnn) s (fun t => ∀ t' : State, t'.stack = t.stack →
      Completes .ret t' (fun u => u.pc = s.pc ∧ u.stack = s.stack))

/-- LD_IMM: V[x] := nn, nothing else changed. 42_register_alu.md R140. -/
def Obligations.LdImmLoadsTheImmediate : Prop :=
  Selected 0xF000 0x6000 (fun w => .ldImm (xOf w) (nnOf w)) ∧
  (∀ (x : RegIdx) (nn : Byte) (s : State),
    Completes (.ldImm x nn) s (fun t => t.getV x = nn ∧ Unchanged [x] [] s t))

/-- ADD_IMM: V[x] := (V[x] + nn) mod 256, no flag. 42_register_alu.md R141. -/
def Obligations.AddImmWrapsWithoutFlag : Prop :=
  Selected 0xF000 0x7000 (fun w => .addImm (xOf w) (nnOf w)) ∧
  (∀ (x : RegIdx) (nn : Byte) (s : State),
    Completes (.addImm x nn) s (fun t =>
      (t.getV x).toNat = ((s.getV x).toNat + nn.toNat) % 256 ∧ Unchanged [x] [] s t)) ∧
  (∀ (x : RegIdx) (nn1 nn2 : Byte) (s : State),
    Completes (.ldImm x nn1) s (fun t => Completes (.addImm x nn2) t (fun u =>
      (u.getV x).toNat = (nn1.toNat + nn2.toNat) % 256 ∧ Unchanged [x] [] s u)))

/-- LD_REG: V[x] := V[y], nothing else changed. 42_register_alu.md R142. -/
def Obligations.LdRegCopiesTheSource : Prop :=
  Selected 0xF00F 0x8000 (fun w => .ldReg (xOf w) (yOf w)) ∧
  (∀ (x y : RegIdx) (s : State),
    Completes (.ldReg x y) s (fun t => t.getV x = s.getV y ∧ Unchanged [x] [] s t)) ∧
  (∀ (x : RegIdx) (s : State), Completes (.ldReg x x) s (fun t => Unchanged [] [] s t))

/-- OR, AND, XOR act bit by bit on V[x] and V[y]; VF is unchanged unless it is the destination. 42_register_alu.md
R143 to R145; that VF is left alone is the spec's decision D22 (notes/assumptions/18.md). -/
def Obligations.LogicLeavesTheFlagAlone : Prop :=
  Selected 0xF00F 0x8001 (fun w => .orReg (xOf w) (yOf w)) ∧ Selected 0xF00F 0x8002 (fun w => .andReg (xOf w) (yOf w)) ∧
  Selected 0xF00F 0x8003 (fun w => .xorReg (xOf w) (yOf w)) ∧
  (∀ (x y : RegIdx) (s : State),
    Completes (.orReg x y) s (fun t => Unchanged [x] [] s t ∧
      ∀ k, (t.getV x).getLsbD k = ((s.getV x).getLsbD k || (s.getV y).getLsbD k)) ∧
    Completes (.andReg x y) s (fun t => Unchanged [x] [] s t ∧
      ∀ k, (t.getV x).getLsbD k = ((s.getV x).getLsbD k && (s.getV y).getLsbD k)) ∧
    Completes (.xorReg x y) s (fun t => Unchanged [x] [] s t ∧
      ∀ k, (t.getV x).getLsbD k = ((s.getV x).getLsbD k ^^ (s.getV y).getLsbD k)))

/-- ADD_REG: V[x] := sum mod 256, VF := 1 if sum > 255 else 0, the flag written last. 42_register_alu.md R146. The
flag written last, which decides x = 15, and the operands read first, which decides y = 15, are the spec's decision D3
(notes/assumptions/9.md). -/
def Obligations.AddRegWritesSumThenCarry : Prop :=
  Selected 0xF00F 0x8004 (fun w => .addReg (xOf w) (yOf w)) ∧
  (∀ (x y : RegIdx) (s : State),
    Completes (.addReg x y) s (fun t =>
      t.getV 15 = (if (s.getV x).toNat + (s.getV y).toNat > 255 then 1 else 0) ∧
      (x ≠ 15 → (t.getV x).toNat = ((s.getV x).toNat + (s.getV y).toNat) % 256) ∧
      Unchanged [x, 15] [] s t))

/-- SUB and SUBN: the difference mod 256, VF := 1 exactly when the minuend is strictly greater. 42_register_alu.md
R147, R149. The difference is over the integers, reduced into 0..255. The flag written last, which decides x = 15, and
the operands read first, which decides y = 15, are the spec's decision D3 (notes/assumptions/9.md). -/
def Obligations.SubAndSubnCompareStrictly : Prop :=
  Selected 0xF00F 0x8005 (fun w => .subReg (xOf w) (yOf w)) ∧ Selected 0xF00F 0x8007 (fun w => .subn (xOf w) (yOf w)) ∧
  (∀ (x y : RegIdx) (s : State),
    Completes (.subReg x y) s (fun t =>
      t.getV 15 = (if (s.getV x).toNat > (s.getV y).toNat then 1 else 0) ∧
      (x ≠ 15 → ((t.getV x).toNat : Int) = (((s.getV x).toNat : Int) - (s.getV y).toNat) % 256) ∧
      Unchanged [x, 15] [] s t) ∧
    Completes (.subn x y) s (fun t =>
      t.getV 15 = (if (s.getV y).toNat > (s.getV x).toNat then 1 else 0) ∧
      (x ≠ 15 → ((t.getV x).toNat : Int) = (((s.getV y).toNat : Int) - (s.getV x).toNat) % 256) ∧
      Unchanged [x, 15] [] s t))

/-- SHR: V[x] := V[y] >> 1, VF := bit 0 of V[y], the flag written last. 42_register_alu.md R148. The flag written
last, which decides x = 15, and the operands read first, which decides y = 15, are the spec's decision D3
(notes/assumptions/9.md). The shift variant is D25 (notes/assumptions/22.md). -/
def Obligations.ShrShiftsTheSourceRegister : Prop :=
  Selected 0xF00F 0x8006 (fun w => .shr (xOf w) (yOf w)) ∧
  (∀ (x y : RegIdx) (s : State),
    Completes (.shr x y) s (fun t => (t.getV 15).toNat = (s.getV y).toNat % 2 ∧
      (x ≠ 15 → (t.getV x).toNat = (s.getV y).toNat / 2) ∧ Unchanged [x, 15] [] s t))

/-- SHL: V[x] := (V[y] << 1) mod 256, VF := 0x80 or 0x00, the flag written last. 42_register_alu.md R150. The flag
written last, which decides x = 15, and the operands read first, which decides y = 15, are the spec's decision D3
(notes/assumptions/9.md). The raw flag is D24 and the shift variant D25 (notes/assumptions/22.md). -/
def Obligations.ShlFlagIsTheRawHighBit : Prop :=
  Selected 0xF00F 0x800E (fun w => .shl (xOf w) (yOf w)) ∧
  (∀ (x y : RegIdx) (s : State),
    Completes (.shl x y) s (fun t =>
      t.getV 15 = (if (s.getV y).toNat ≥ 0x80 then 0x80 else 0x00) ∧
      (x ≠ 15 → (t.getV x).toNat = 2 * (s.getV y).toNat % 256) ∧ Unchanged [x, 15] [] s t))

/-- RND: V[x] := rand AND nn for the byte drawn, whatever it is; the draw is used up. 42_register_alu.md R151; the
byte is the free value `Config.randomByte` of the draw, and the count of draws is the model's choice
(notes/assumptions/3.md). It holds for every value of `draws`. -/
def Obligations.RndMasksTheDrawnByte : Prop :=
  Selected 0xF000 0xC000 (fun w => .rnd (xOf w) (nnOf w)) ∧
  (∀ (x : RegIdx) (nn : Byte) (s : State),
    Completes (.rnd x nn) s (fun t => t.getV x = Config.randomByte s.draws &&& nn ∧
      (∀ k, nn.getLsbD k = false → (t.getV x).getLsbD k = false) ∧ t.draws = s.draws + 1 ∧
      Unchanged [x] [.draws] s t)) ∧
  (∀ (rand : Byte) (x : RegIdx) (nn : Byte) (s : State),
    (rndWith rand x nn s).getV x = rand &&& nn ∧ Unchanged [x] [] s (rndWith rand x nn s))

/-- An instruction that is not RND neither reads nor advances the random input. 40_step_cycle.md R106 ("A step that
does not execute RND ignores `rand`", which the spec marks as its decision D10); notes/assumptions/3.md. -/
def Obligations.OnlyRndDependsOnTheRandomInput : Prop :=
  ∀ (i : Instr) (s t : State) (k : Nat), (∀ x nn, i ≠ .rnd x nn) → exec i s = .next t →
    t.draws = s.draws ∧ exec i { s with draws := k } = .next { t with draws := k }

/-- LD_I: I := nnn, bits 15 to 12 zero, nothing else changed. 43_index_and_memory.md R160. -/
def Obligations.LdILoadsTheAddress : Prop :=
  Selected 0xF000 0xA000 (fun w => .ldI (nnnOf w)) ∧
  (∀ (nnn : Addr12) (s : State),
    Completes (.ldI nnn) s (fun t => t.i.toNat = nnn.toNat ∧ t.i.toNat ≤ 0xFFF ∧ Unchanged [] [.i] s t))

/-- ADD_I: I := (I + V[x]) mod 0x1000, no flag. 43_index_and_memory.md R161; that the sum is masked is the spec's
decision D1 (notes/assumptions/8.md). -/
def Obligations.AddIMasksTheSum : Prop :=
  Selected 0xF0FF 0xF01E (fun w => .addI (xOf w)) ∧
  (∀ (x : RegIdx) (s : State),
    Completes (.addI x) s (fun t => t.i.toNat = (s.i.toNat + (s.getV x).toNat) % 0x1000 ∧ Unchanged [] [.i] s t))

/-- ST_REGS stores V0 to V[x] at I upward and nothing else; past 0xFFF it is fatal with nothing written.
43_index_and_memory.md R162; 20_memory.md R58; the spec's decisions D2 and D30 (notes/assumptions/10.md, 18.md). The
premise on memory is part of the invariant of StepKeepsTheInvariant. The halted state is notes/assumptions/1.md,
notes/assumptions/11.md, the form of memory notes/assumptions/7.md. -/
def Obligations.StRegsStoresTheBlockOrHalts : Prop :=
  Selected 0xF0FF 0xF055 (fun w => .stRegs (xOf w)) ∧
  (∀ (x : RegIdx) (s : State), s.mem.wf = true → s.i.toNat + x.val ≤ 0xFFF →
    Completes (.stRegs x) s (fun t =>
      (∀ k : RegIdx, k ≤ x → t.mem.read (s.i.toNat + k.val) = s.getV k) ∧
      (∀ a, a < s.i.toNat ∨ s.i.toNat + x.val < a → t.mem.read a = s.mem.read a) ∧
      Unchanged [] [.mem] s t)) ∧
  (∀ (x : RegIdx) (s : State), 0xFFF < s.i.toNat + x.val →
    Completes (.stRegs x) s (fun t =>
      t.status = .halted (.outOfBounds .data 0x1000) ∧ Unchanged [] [.status] s t))

/-- LD_REGS loads V0 to V[x] from I upward and nothing else; past 0xFFF it is fatal with nothing written.
43_index_and_memory.md R163; 20_memory.md R58; the spec's decisions D2 and D30 (notes/assumptions/10.md, 18.md). The
halted state is notes/assumptions/1.md, notes/assumptions/11.md. -/
def Obligations.LdRegsLoadsTheBlockOrHalts : Prop :=
  Selected 0xF0FF 0xF065 (fun w => .ldRegs (xOf w)) ∧
  (∀ (x : RegIdx) (s : State), s.i.toNat + x.val ≤ 0xFFF →
    Completes (.ldRegs x) s (fun t =>
      (∀ k : RegIdx, k ≤ x → t.getV k = s.mem.read (s.i.toNat + k.val)) ∧ Unchanged (regsUpTo x) [] s t)) ∧
  (∀ (x : RegIdx) (s : State), 0xFFF < s.i.toNat + x.val →
    Completes (.ldRegs x) s (fun t =>
      t.status = .halted (.outOfBounds .data 0x1000) ∧ Unchanged [] [.status] s t))

/-- After ST_REGS, LD_REGS of the same block gives the stored registers back. A read returns the most recent write
(20_memory.md R68 (a)), through 43_index_and_memory.md R162 and R163. The premise on memory is the model's form
(notes/assumptions/7.md). -/
def Obligations.StoreThenLoadRestoresTheRegisters : Prop :=
  ∀ (x : RegIdx) (s : State), s.mem.wf = true → s.i.toNat + x.val ≤ 0xFFF →
    Completes (.stRegs x) s (fun t => ∀ t' : State, t'.mem = t.mem → t'.i = s.i →
      Completes (.ldRegs x) t' (fun u => ∀ k : RegIdx, k ≤ x → u.getV k = s.getV k))

/-- A store is seen by the very next fetch: self-modifying code takes effect at once. 20_memory.md R69,
70_reset_and_hazards.md R242; the spec's decision D23 (notes/assumptions/21.md). A fetch at an odd PC is
notes/assumptions/19.md, the premise on memory the model's form (notes/assumptions/7.md). -/
def Obligations.StoredBytesAreFetchedAtOnce : Prop :=
  ∀ (x k k' : RegIdx) (s : State), s.mem.wf = true → s.i.toNat + x.val ≤ 0xFFF → k'.val = k.val + 1 → k' ≤ x →
    Completes (.stRegs x) s (fun t => ∀ pc : Word, pc.toNat = s.i.toNat + k.val →
      ∃ w u, fetch (t.setPc pc) = some (w, u) ∧ w.toNat = (s.getV k).toNat * 256 + (s.getV k').toNat)

/-- Two canonical memories that read the same at every address are the same list. The form of memory is the model's
choice (notes/assumptions/7.md); the bytes are those of 20_memory.md R50, R61. -/
def Obligations.CanonicalMemoriesAreDeterminedByTheirReads : Prop :=
  ∀ m m' : Memory, m.wf = true → m'.wf = true → (∀ a, m.read a = m'.read a) → m = m'

/-- CLS: every pixel false, display_dirty set, nothing else. 44_display.md R170; display_dirty is the output
`out.dirty` (notes/assumptions/2.md). -/
def Obligations.ClsBlanksTheDisplay : Prop :=
  Selected 0xFFFF 0x00E0 (fun _ => .cls) ∧
  (∀ s : State, Completes .cls s (fun t => (∀ cx cy, t.disp.pixel cx cy = false) ∧ t.out.dirty = true ∧
    Unchanged [] [.disp, .dirty] s t))

/-- DRW flips exactly the covered pixels, VF := 1 exactly on a collision; past 0xFFF it is fatal with nothing changed.
44_display.md R171 to R173, R175; the spec's decisions D2, D4, D5, D7 (notes/assumptions/9.md, 10.md, 12.md, 13.md).
The case n = 0 is D6 (notes/assumptions/14.md), the output display_dirty notes/assumptions/2.md, the halted state
notes/assumptions/1.md, notes/assumptions/11.md. -/
def Obligations.DrwXorsTheSpriteAndReportsCollision : Prop :=
  Selected 0xF000 0xD000 (fun w => .drw (xOf w) (yOf w) (nOf w)) ∧
  (∀ (x y : RegIdx) (n : Nibble) (s : State), n.toNat = 0 ∨ s.i.toNat + n.toNat - 1 ≤ 0xFFF →
    Completes (.drw x y n) s (fun t =>
      (∀ cx cy, (SpriteCovers s x y n cx cy → t.disp.pixel cx cy = !s.disp.pixel cx cy) ∧
        (¬ SpriteCovers s x y n cx cy → t.disp.pixel cx cy = s.disp.pixel cx cy)) ∧
      ((∃ cx cy, SpriteCovers s x y n cx cy ∧ s.disp.pixel cx cy = true) → t.getV 15 = 1) ∧
      ((¬ ∃ cx cy, SpriteCovers s x y n cx cy ∧ s.disp.pixel cx cy = true) → t.getV 15 = 0) ∧
      t.out.dirty = true ∧ Unchanged [15] [.disp, .dirty] s t)) ∧
  (∀ (x y : RegIdx) (n : Nibble) (s : State), 1 ≤ n.toNat → 0xFFF < s.i.toNat + n.toNat - 1 →
    Completes (.drw x y n) s (fun t =>
      t.status = .halted (.outOfBounds .data 0x1000) ∧ Unchanged [] [.status] s t))

/-- DRW with n = 0 changes no pixel, writes VF = 0, marks dirty and never faults, whatever I is. 44_display.md R174;
the spec's decision D6 (notes/assumptions/14.md). The output display_dirty is notes/assumptions/2.md. -/
def Obligations.DrwOfNoRowsClearsTheFlag : Prop :=
  ∀ (x y : RegIdx) (s : State), Completes (.drw x y 0) s (fun t =>
    t.getV 15 = 0 ∧ t.out.dirty = true ∧ Unchanged [15] [.dirty] s t)

/-- Drawing the identical sprite at the identical place twice restores every pixel; VF tells of the second draw only.
The document's double-draw property (44_display.md R176 (c), 95_test_vectors.md S6). Which pixels a sprite covers is
the spec's decisions D4 and D5 (notes/assumptions/12.md, notes/assumptions/13.md), the case n = 0 is D6
(notes/assumptions/14.md), and x or y = 15 is D7 (notes/assumptions/9.md). -/
def Obligations.DrawingTwiceRestoresTheDisplay : Prop :=
  ∀ (x y : RegIdx) (n : Nibble) (s : State), BlockFits s.i.toNat n.toNat →
    Completes (.drw x y n) s (fun t => ∀ t' : State, t'.disp = t.disp → t'.getV x = s.getV x → t'.getV y = s.getV y →
      t'.i = s.i → SameMem s t' →
      Completes (.drw x y n) t' (fun u => SameDisp s u ∧
        ((∃ cx cy, SpriteCovers s x y n cx cy ∧ s.disp.pixel cx cy = false) → u.getV 15 = 1) ∧
        ((¬ ∃ cx cy, SpriteCovers s x y n cx cy ∧ s.disp.pixel cx cy = false) → u.getV 15 = 0)))

/-- A pixel is the XOR of every sprite bit drawn to it since the last clear. 10_state.md R35, on the landing of bits
of 44_display.md R172, R173 (the spec's decisions D4, D5; notes/assumptions/12.md, 13.md). -/
def Obligations.PixelIsTheXorOfTheBitsDrawn : Prop :=
  ∀ (cx : Fin 64) (cy : Fin 32) (is : List Instr) (s u : State) (k : Nat), Instr.cls ∉ is → DrawnOn cx cy is s k u →
    u.disp.pixel cx cy = (s.disp.pixel cx cy ^^ decide (k % 2 = 1)) ∧
    (∀ s0 : State, exec .cls s0 = .next s → u.disp.pixel cx cy = decide (k % 2 = 1))

/-- The eight named Unimplemented rows report their word and do nothing else. 45_unimplemented.md R182, acting as R180
says; the spec's decision D29 (notes/assumptions/16.md, 26.md). That the event holds the post-fetch PC is the spec's
decision D15 (notes/assumptions/17.md); its place, the output `out.diag`, is the model's (notes/assumptions/2.md). -/
def Obligations.NamedUnimplementedRowsOnlyReport : Prop :=
  ∀ r ∈ namedUnimplementedRows, ∀ w : Word, w &&& r.mask = r.pattern → decode w = .instr (r.build w) ∧
    ∀ s : State, Completes (r.build w) s (fun t =>
      t.out.diag = some { word := w, pc := s.pc } ∧ Unchanged [] [.diag] s t)

/-- No instruction but ST_REGS changes a byte of memory. 20_memory.md R51: ST_REGS "is the only instruction that
writes memory". -/
def Obligations.OnlyStRegsWritesMemory : Prop :=
  ∀ (i : Instr) (s t : State), (∀ x, i ≠ .stRegs x) → exec i s = .next t → SameMem s t

/-- Pixels change only by CLS and DRW, and display_dirty is set by exactly these two. 10_state.md R34: "Mutated only
by the clear instruction and the sprite-draw instruction"; 40_step_cycle.md R107, whose lifetime of display_dirty is
the spec's decision D18 (notes/assumptions/2.md). -/
def Obligations.OnlyClsAndDrwChangeThePixels : Prop :=
  ∀ (i : Instr) (s t : State), s.status = .running → s.out.dirty = false → exec i s = .next t →
    ((i = .cls ∨ ∃ x y n, i = .drw x y n) → t.status = .running → t.out.dirty = true) ∧
    ((i ≠ .cls ∧ ∀ x y n, i ≠ .drw x y n) → t.out.dirty = false ∧ SameDisp s t)

/-- The call stack is reachable only through CALL and RET. 10_state.md R31: "The stack is reachable only through CALL
(2nnn) and RET (00EE)". -/
def Obligations.OnlyCallAndRetTouchTheStack : Prop :=
  ∀ (i : Instr) (s t : State) (k : List Word), i ≠ .ret → (∀ nnn, i ≠ .call nnn) → exec i s = .next t →
    t.stack = s.stack ∧ exec i { s with stack := k } = .next { t with stack := k }

/-- I is written by LD_I and ADD_I only, and what they write is at most 0xFFF. 10_state.md R27. That ST_REGS and
LD_REGS leave I alone is the spec's decision D30 (notes/assumptions/18.md), and that ADD_I ends at most 0xFFF is D1
(notes/assumptions/8.md). -/
def Obligations.OnlyLdIAndAddIWriteTheIndex : Prop :=
  ∀ (i : Instr) (s t : State), exec i s = .next t →
    ((∀ nnn, i ≠ .ldI nnn) → (∀ x, i ≠ .addI x) → t.i = s.i) ∧
    ((∃ nnn, i = .ldI nnn) ∨ (∃ x, i = .addI x) → t.i.toNat ≤ 0xFFF)

/-- An instruction writes no V register but its destination, VF as its flag, and V0 to V[x] for LD_REGS. 10_state.md
R24 (marked derived in the spec) and R25: "No other instruction writes VF except as an ordinary destination". The sets
are `writesRegs`. That OR, AND and XOR leave VF alone is the spec's decision D22 (notes/assumptions/18.md). -/
def Obligations.OnlyNamedRegistersAreWritten : Prop :=
  ∀ (i : Instr) (s t : State), exec i s = .next t → SameRegsBut (writesRegs i) s t

/-- Which instruction raises which fatal condition, exactly when, and the state it leaves. 60_exceptions.md R201, R203
to R205, R208, R210, R213. The state left is the spec's decision D16 (notes/assumptions/1.md,
notes/assumptions/11.md); the data condition, with no partial effect, is D2 (notes/assumptions/10.md); equality with
the bound is notes/assumptions/5.md; DRW with n = 0 raises nothing by D6 (notes/assumptions/14.md). -/
def Obligations.EachInstructionRaisesOnlyItsCondition : Prop :=
  ∀ (i : Instr) (s t : State), s.status = .running → exec i s = .next t →
    ∀ c, (t.status = .halted c ↔ Raises i s c) ∧ (t.status = .halted c → t = s.halt c)

/-- Every step keeps the invariant: canonical memory, I at most 0xFFF, PC at most 0x1002, stack entries and depth in
range. 10_state.md R27, R29 (marked derived in the spec), R32; 60_exceptions.md R201. The canonical memory is the
model's (notes/assumptions/7.md). The masks, the recorded address and the unmasked PC that it speaks of are the spec's
decisions (notes/assumptions/8.md, notes/assumptions/10.md, notes/assumptions/19.md). -/
def Obligations.StepKeepsTheInvariant : Prop :=
  ∀ s t : State, s.Inv → step s = .next t → t.Inv

/-- The state after reset meets the invariant, for every legal STACK_DEPTH. 10_state.md R40; 00_scope.md R6. I = 0 and
the empty stack are the spec's decision D9 (notes/assumptions/6.md), the default bound some 16 is its D8, from general
knowledge (notes/assumptions/4.md), and the form of memory is the model's (notes/assumptions/7.md). -/
def Obligations.ResetMeetsTheInvariant : Prop :=
  (∀ cfg : Config, cfg.wf = true → (State.resetWith cfg).Inv) ∧ State.reset.Inv

/-- A successful load keeps the invariant. 20_memory.md R64. A long image fails by the spec's decision D21
(notes/assumptions/23.md); the form of memory is the model's (notes/assumptions/7.md). -/
def Obligations.LoadKeepsTheInvariant : Prop :=
  ∀ (s t : State) (bytes : List Byte), s.Inv → s.load bytes = .ok t → t.Inv ∧ Unchanged [] [.mem] s t

/-- Every state that the host can bring the block to by reset, load, step and stop meets the invariant.
40_step_cycle.md R111; 20_memory.md R65 for the failed load. The host's moves and the failed load are the spec's
decisions D19, D21 and D26 (notes/assumptions/23.md). -/
def Obligations.ReachableSessionsMeetTheInvariant : Prop :=
  ∀ q : Session, q.Reachable → q.state.Inv ∧ (q.phase = .fresh ∨ q.phase = .loadFailed → ∀ a, q.state.mem.read a = 0)

/-- From a jump to itself every run is safe and the state no longer changes. 30_encoding.md R93, 40_step_cycle.md
R112: the end state of a program. The outputs are the model's (notes/assumptions/2.md). -/
def Obligations.JumpToItselfRunsSafelyForEver : Prop :=
  ∀ s : State, s.status = .running → s.pc.toNat ≤ 0xFFE → s.wordAtPc = 0x1000 + s.pc.toNat →
    ∀ k, SafeRun k s ∧ StepsTo (k + 1) s s.clearOutputs ∧ (∀ t, StepsTo (k + 1) s t → t = s.clearOutputs)

/-- After reset: memory zero, PC 0x200, V registers zero, I zero, stack empty, display blank, Running. 10_state.md
R40; all but memory and PC are the spec's decision D9 (notes/assumptions/6.md). -/
def Obligations.ResetGivesEveryPieceItsValue : Prop :=
  ∀ cfg : Config, (∀ a, (State.resetWith cfg).mem.read a = 0) ∧ (State.resetWith cfg).pc.toNat = 0x200 ∧
    (∀ x, (State.resetWith cfg).getV x = 0) ∧ (State.resetWith cfg).i = 0 ∧ (State.resetWith cfg).stack = [] ∧
    (∀ cx cy, (State.resetWith cfg).disp.pixel cx cy = false) ∧ (State.resetWith cfg).status = .running ∧
    (State.resetWith cfg).cfg = cfg

/-- load copies the image to 0x200 upward and leaves all other memory zero. 20_memory.md R64, whose empty image the
spec marks as derived; that a longer image is not loaded is R65 with the spec's decision D21
(notes/assumptions/23.md). All but memory and PC of the reset state is D9 (notes/assumptions/6.md). -/
def Obligations.LoadCopiesTheImage : Prop :=
  ∀ (cfg : Config) (bytes : List Byte),
    (bytes.length ≤ 4096 - 0x200 → ∃ t, (State.resetWith cfg).load bytes = .ok t ∧
      (∀ k b, bytes[k]? = some b → t.mem.read (0x200 + k) = b) ∧
      (∀ a, a < 0x200 ∨ 0x200 + bytes.length ≤ a → t.mem.read a = 0) ∧
      Unchanged [] [.mem] (State.resetWith cfg) t) ∧
    (4096 - 0x200 < bytes.length → ∀ t, (State.resetWith cfg).load bytes ≠ .ok t)

/-- An image of more than 3584 bytes: OutOfSpace, nothing loaded, no step may follow. 20_memory.md R65,
70_reset_and_hazards.md R233; the spec's decision D21 (notes/assumptions/23.md). -/
def Obligations.OversizedImageIsNeverStarted : Prop :=
  ∀ (q : Session) (bytes : List Byte), q.phase = .fresh → 3584 < bytes.length →
    ∃ q', q.move (.load bytes) = some (.outOfSpace, q') ∧ q'.state = q.state ∧ q'.move .step = none ∧
      (∀ bs, q'.move (.load bs) = none) ∧ q'.move .reset = q.move .reset

/-- When reset, load, step and stop are moves of the host, and what they do. 40_step_cycle.md R111; 20_memory.md R66
(the spec's decision D26; notes/assumptions/23.md); 00_scope.md R9. The moves are the spec's decision D19; a reset
does not rewind the draws (notes/assumptions/3.md); a fatal step is notes/assumptions/1.md. -/
def Obligations.HostMovesAreAllowedAsTabulated : Prop :=
  ∀ q : Session,
    q.move .reset = some (.none, { state := { State.resetWith q.state.cfg with draws := q.state.draws }, phase := .fresh }) ∧
    (∃ q', q.move .stop = some (.none, q') ∧ q'.state = q.state ∧ q'.move .step = none ∧
      (q.phase ≠ .loaded → q' = q)) ∧
    (∀ bytes, (q.move (.load bytes)).isSome = true ↔ q.phase = .fresh) ∧
    (∀ bytes, q.phase = .fresh → bytes.length ≤ 3584 →
      ∃ t, q.state.load bytes = .ok t ∧ q.move (.load bytes) = some (.loadOk, { state := t, phase := .loaded })) ∧
    (∀ bytes, q.phase = .fresh → 3584 < bytes.length →
      q.move (.load bytes) = some (.outOfSpace, { q with phase := .loadFailed })) ∧
    ((q.move .step).isSome = true ↔ q.phase = .loaded ∧ q.state.status = .running) ∧
    (∀ r q', q.move .step = some (r, q') → step q.state = .next q'.state ∧ q'.phase = .loaded ∧
      (∀ c, q'.state.status = .halted c → r = .stepped (.fatal c)) ∧
      (q'.state.status = .running → r = .stepped (.ok q'.state.out.dirty q'.state.out.diag)))

/-- No move of the host rewinds the random input, and a step uses a draw up exactly when it executes RND.
40_step_cycle.md R106: "drawn afresh for each step and under no law", which the spec marks as its decision D10. That
draws are counted, and that only RND uses one up, is the model's choice (notes/assumptions/3.md). -/
def Obligations.EveryDrawIsFresh : Prop :=
  ∀ (q q' : Session) (m : HostMove) (r : HostReply), q.move m = some (r, q') →
    q.state.draws ≤ q'.state.draws ∧ (m ≠ .step → q'.state.draws = q.state.draws) ∧
    (m = .step → 0xFFF ≤ q.state.pc.toNat → q'.state.draws = q.state.draws) ∧
    (m = .step → q.state.pc.toNat ≤ 0xFFE → ∀ w : Word, w.toNat = q.state.wordAtPc →
      q'.state.draws = if w &&& 0xF000 = 0xC000 then q.state.draws + 1 else q.state.draws)

/-- A run ends by a fatal step or by the host, in no other way, and then no step is possible until a reset.
40_step_cycle.md R112, with the host's operations of R111, which are the spec's decision D19
(notes/assumptions/23.md); that a reset abandons a run is R111's 'any time between steps'. The halted state is a next
state (notes/assumptions/1.md). -/
def Obligations.ARunGoesOnUntilAFatalStepOrTheHostEndsIt : Prop :=
  (∀ q : Session, q.phase = .loaded → q.state.status = .running →
      (∃ r q', q.move .step = some (r, q')) ∧
      ∀ (m : HostMove) (r : HostReply) (q' : Session), q.move m = some (r, q') →
        (q'.phase = .loaded ∧ q'.state.status = .running) ∨
        (m = .step ∧ ∃ c, r = .stepped (.fatal c) ∧ q'.phase = .loaded ∧ q'.state.status = .halted c) ∨
        (m = .stop ∧ q'.phase = .stopped ∧ q'.state = q.state) ∨ (m = .reset ∧ q'.phase = .fresh)) ∧
  (∀ q : Session, (q.phase = .loaded ∧ ∃ c, q.state.status = .halted c) ∨ q.phase = .stopped →
    q.move .step = none ∧ ∀ bytes, q.move (.load bytes) = none)

/-- A run that the host does not stop has at most one end, goes on until it, and nothing changes after it.
40_step_cycle.md R112: "A model must define the end of a run explicitly". The definition, `RunStart.endsAt`, is the
model's choice, one of R112's two examples each (notes/assumptions/29.md); the outputs are notes/assumptions/2.md, the
halted state notes/assumptions/1.md, the count of draws notes/assumptions/3.md. -/
def Obligations.TheEndOfARunIsUniqueAndFinal : Prop :=
  (∀ s : State, (s.runEnd = some .selfJump ↔
      s.status = .running ∧ s.pc.toNat ≤ 0xFFE ∧ s.wordAtPc = 0x1000 + s.pc.toNat) ∧
    ∀ c, s.runEnd = some (.fatal c) ↔ s.status = .halted c) ∧
  ∀ r : RunStart,
    (∀ s, r.reaches 0 s ↔ State.load { State.resetWith r.cfg with draws := r.draws } r.image = .ok s) ∧
    (∀ k s, r.reaches k s → s.runEnd = none → ∃ t, r.reaches (k + 1) t) ∧
    (∀ k s e, r.reaches k s → s.runEnd = some e → ∃ j t e', j ≤ k ∧ r.endsAt j t e') ∧
    (∀ k s e k' s' e', r.endsAt k s e → r.endsAt k' s' e' → k = k' ∧ s = s' ∧ e = e') ∧
    (∀ k s c, r.endsAt k s (.fatal c) → s.status = .halted c ∧ ∀ j t, ¬ r.reaches (k + 1 + j) t) ∧
    (∀ k s, r.endsAt k s .selfJump → s.status = .running ∧
      ∀ j, r.reaches (k + 1 + j) s.clearOutputs ∧ ∀ t, r.reaches (k + 1 + j) t → t = s.clearOutputs)
end

