-- ==== Sys2Proof/Laws/Decode.lean ====
section
/-! SUPPORT. Words, fields and masks as numbers: the lemmas by which decoding and encoding, and decoding and the opcode
table, are compared. -/

namespace Sys2Proof

/-! ### Fields as numbers (spec/30_encoding.md R81) -/

theorem toNat_catOf (w : Word) : (catOf w).toNat = w.toNat / 4096 % 16 := by
  simp [catOf, BitVec.extractLsb'_toNat, Nat.shiftRight_eq_div_pow]

theorem val_xOf (w : Word) : (xOf w).val = w.toNat / 256 % 16 := by
  show (w.extractLsb' 8 4).toNat = _
  simp [BitVec.extractLsb'_toNat, Nat.shiftRight_eq_div_pow]

theorem val_yOf (w : Word) : (yOf w).val = w.toNat / 16 % 16 := by
  show (w.extractLsb' 4 4).toNat = _
  simp [BitVec.extractLsb'_toNat, Nat.shiftRight_eq_div_pow]

theorem toNat_nOf (w : Word) : (nOf w).toNat = w.toNat % 16 := by
  simp [nOf, BitVec.extractLsb'_toNat]

theorem toNat_nnOf (w : Word) : (nnOf w).toNat = w.toNat % 256 := by
  simp [nnOf, BitVec.extractLsb'_toNat]

theorem toNat_nnnOf (w : Word) : (nnnOf w).toNat = w.toNat % 4096 := by
  simp [nnnOf, BitVec.extractLsb'_toNat]

/-! ### Words put together by format, as numbers (R82) -/

theorem toNat_append {m n : Nat} (a : BitVec m) (b : BitVec n) :
    (a ++ b).toNat = a.toNat * 2 ^ n + b.toNat := by
  rw [BitVec.toNat_append, ← Nat.shiftLeft_add_eq_or_of_lt b.isLt, Nat.shiftLeft_eq]

theorem toNat_encA (c : Nibble) (nnn : Addr12) : (encA c nnn).toNat = c.toNat * 4096 + nnn.toNat :=
  toNat_append c nnn

theorem toNat_encXN (c : Nibble) (x : RegIdx) (nn : Byte) :
    (encXN c x nn).toNat = (c.toNat * 16 + x.val) * 256 + nn.toNat := by
  refine (toNat_append (c ++ BitVec.ofFin (w := 4) x) nn).trans ?_
  rw [toNat_append]
  rfl

theorem toNat_encXY (c : Nibble) (x y : RegIdx) (f : Nibble) :
    (encXY c x y f).toNat = ((c.toNat * 16 + x.val) * 16 + y.val) * 16 + f.toNat := by
  refine (toNat_append (c ++ BitVec.ofFin (w := 4) x ++ BitVec.ofFin (w := 4) y) f).trans ?_
  rw [toNat_append, toNat_append]
  rfl

theorem toNat_wordOfBytes (hi lo : Byte) : (wordOfBytes hi lo).toNat = hi.toNat * 256 + lo.toNat :=
  toNat_append hi lo

/-! ### The fields of a word put together -/

section
variable (c : Nibble) (x y : RegIdx) (f : Nibble) (nn : Byte) (nnn : Addr12)

@[simp] theorem catOf_encA : catOf (encA c nnn) = c := by
  apply BitVec.eq_of_toNat_eq; rw [toNat_catOf, toNat_encA]; omega

@[simp] theorem nnnOf_encA : nnnOf (encA c nnn) = nnn := by
  apply BitVec.eq_of_toNat_eq; rw [toNat_nnnOf, toNat_encA]; omega

@[simp] theorem catOf_encXN : catOf (encXN c x nn) = c := by
  apply BitVec.eq_of_toNat_eq; rw [toNat_catOf, toNat_encXN]; omega

@[simp] theorem xOf_encXN : xOf (encXN c x nn) = x := by
  apply Fin.ext; rw [val_xOf, toNat_encXN]; omega

@[simp] theorem nnOf_encXN : nnOf (encXN c x nn) = nn := by
  apply BitVec.eq_of_toNat_eq; rw [toNat_nnOf, toNat_encXN]; omega

@[simp] theorem catOf_encXY : catOf (encXY c x y f) = c := by
  apply BitVec.eq_of_toNat_eq; rw [toNat_catOf, toNat_encXY]; omega

@[simp] theorem xOf_encXY : xOf (encXY c x y f) = x := by
  apply Fin.ext; rw [val_xOf, toNat_encXY]; omega

@[simp] theorem yOf_encXY : yOf (encXY c x y f) = y := by
  apply Fin.ext; rw [val_yOf, toNat_encXY]; omega

@[simp] theorem nOf_encXY : nOf (encXY c x y f) = f := by
  apply BitVec.eq_of_toNat_eq; rw [toNat_nOf, toNat_encXY]; omega

end

/-! ### A word is its fields put together -/

theorem encA_fields (w : Word) : encA (catOf w) (nnnOf w) = w := by
  apply BitVec.eq_of_toNat_eq; rw [toNat_encA, toNat_catOf, toNat_nnnOf]; omega

theorem encXN_fields (w : Word) : encXN (catOf w) (xOf w) (nnOf w) = w := by
  apply BitVec.eq_of_toNat_eq; rw [toNat_encXN, toNat_catOf, val_xOf, toNat_nnOf]; omega

theorem encXY_fields (w : Word) : encXY (catOf w) (xOf w) (yOf w) (nOf w) = w := by
  apply BitVec.eq_of_toNat_eq; rw [toNat_encXY, toNat_catOf, val_xOf, val_yOf, toNat_nOf]; omega

theorem wordOfBytes_bytes (w : Word) : wordOfBytes (hiByte w) (loByte w) = w := by
  apply BitVec.eq_of_toNat_eq
  rw [toNat_wordOfBytes]
  simp only [hiByte, loByte, BitVec.extractLsb'_toNat, Nat.shiftRight_eq_div_pow]
  omega

/-! ### What a mask keeps (R84): the fixed fields -/

theorem toNat_mask_cat (w : Word) : (w &&& 0xF000).toNat = w.toNat / 4096 * 4096 := by
  have h : w &&& (0xF000 : Word) = (w >>> 12) <<< 12 := by
    apply BitVec.eq_of_getLsbD_eq
    intro i hi
    interval_cases i <;> simp
  rw [h]
  simp [Nat.shiftRight_eq_div_pow, Nat.shiftLeft_eq]
  omega

theorem toNat_mask_cat_low (w : Word) (k : Nat) (hk : k = 12 ∨ k = 8) (m : Word)
    (hm : m = 0xF000 ||| ((BitVec.allOnes 16) >>> k)) :
    (w &&& m).toNat = w.toNat / 4096 * 4096 + w.toNat % 2 ^ (16 - k) := by
  have h : w &&& m = (w >>> 12) <<< 12 + (w <<< k) >>> k := by
    rw [BitVec.add_eq_or_of_and_eq_zero]
    · rcases hk with rfl | rfl <;> subst hm <;> apply BitVec.eq_of_getLsbD_eq <;> intro i hi <;>
        interval_cases i <;> simp
    · rcases hk with rfl | rfl <;> apply BitVec.eq_of_getLsbD_eq <;> intro i hi <;>
        interval_cases i <;> simp
  rw [h]
  rcases hk with rfl | rfl <;> simp [Nat.shiftRight_eq_div_pow, Nat.shiftLeft_eq] <;> omega

theorem toNat_mask_cat_n (w : Word) : (w &&& 0xF00F).toNat = w.toNat / 4096 * 4096 + w.toNat % 16 :=
  toNat_mask_cat_low w 12 (.inl rfl) 0xF00F (by decide)

theorem toNat_mask_cat_nn (w : Word) : (w &&& 0xF0FF).toNat = w.toNat / 4096 * 4096 + w.toNat % 256 :=
  toNat_mask_cat_low w 8 (.inr rfl) 0xF0FF (by decide)

theorem mask_all (w : Word) : w &&& 0xFFFF = w := by
  have h : (0xFFFF : Word) = BitVec.allOnes 16 := by decide
  rw [h, BitVec.and_allOnes]

/-- Mask 0xF000 selects on the category. -/
theorem mask_cat_iff (w : Word) (c : Nibble) : w &&& 0xF000 = encA c 0 ↔ catOf w = c := by
  rw [← BitVec.toNat_inj, ← BitVec.toNat_inj (x := catOf w), toNat_mask_cat, toNat_encA, toNat_catOf]
  simp only [BitVec.toNat_zero, BitVec.ofNat_eq_ofNat]
  omega

/-- Mask 0xF00F selects on the category and the low nibble. -/
theorem mask_cat_n_iff (w : Word) (c f : Nibble) :
    w &&& 0xF00F = encXY c 0 0 f ↔ catOf w = c ∧ nOf w = f := by
  rw [← BitVec.toNat_inj, ← BitVec.toNat_inj (x := catOf w), ← BitVec.toNat_inj (x := nOf w), toNat_mask_cat_n,
    toNat_encXY, toNat_catOf, toNat_nOf]
  simp only [Fin.val_zero]
  omega

/-- Mask 0xF0FF selects on the category and the low byte. -/
theorem mask_cat_nn_iff (w : Word) (c : Nibble) (nn : Byte) :
    w &&& 0xF0FF = encXN c 0 nn ↔ catOf w = c ∧ nnOf w = nn := by
  rw [← BitVec.toNat_inj, ← BitVec.toNat_inj (x := catOf w), ← BitVec.toNat_inj (x := nnOf w), toNat_mask_cat_nn,
    toNat_encXN, toNat_catOf, toNat_nnOf]
  simp only [Fin.val_zero]
  omega

/-! ### Bytes and table words -/

/-- The decoder on the two bytes of a word is the decoder on the word. -/
theorem decodeBytes_word (w : Word) (rest : List Byte) :
    decodeBytes (hiByte w :: loByte w :: rest) = .word (decode w) rest := by
  simp [decodeBytes, wordOfBytes_bytes]

theorem tableWord_16 (w : Nat) : tableWord 16 w = BitVec.ofNat 16 w := by
  apply BitVec.eq_of_toNat_eq
  simp [tableWord]

/-- The decoder on a number of the opcode table. -/
theorem decodeTableWord_instr (w : Nat) (i : Instr) (h : decode (BitVec.ofNat 16 w) = .instr i) :
    decodeTableWord 16 w = some i := by
  simp only [decodeTableWord, decodeBytes_word, tableWord_16, h]

end Sys2Proof
end

