-- ==== Sys2Proof/Laws/State.lean ====
section
/-! SUPPORT. One lemma per field per update of the state, and the read-over-write lemmas of the registers. -/

namespace Sys2Proof.Machine

open Sys2Proof

variable (s : State)

@[simp] theorem setV_v (x : RegIdx) (b : Byte) : (s.setV x b).v = s.v.set x b := rfl
@[simp] theorem setV_i (x : RegIdx) (b : Byte) : (s.setV x b).i = s.i := rfl
@[simp] theorem setV_pc (x : RegIdx) (b : Byte) : (s.setV x b).pc = s.pc := rfl
@[simp] theorem setV_stack (x : RegIdx) (b : Byte) : (s.setV x b).stack = s.stack := rfl
@[simp] theorem setV_mem (x : RegIdx) (b : Byte) : (s.setV x b).mem = s.mem := rfl
@[simp] theorem setV_disp (x : RegIdx) (b : Byte) : (s.setV x b).disp = s.disp := rfl
@[simp] theorem setV_status (x : RegIdx) (b : Byte) : (s.setV x b).status = s.status := rfl
@[simp] theorem setV_out (x : RegIdx) (b : Byte) : (s.setV x b).out = s.out := rfl
@[simp] theorem setV_draws (x : RegIdx) (b : Byte) : (s.setV x b).draws = s.draws := rfl
@[simp] theorem setV_cfg (x : RegIdx) (b : Byte) : (s.setV x b).cfg = s.cfg := rfl

@[simp] theorem setResultAndFlag_i (x : RegIdx) (b f : Byte) : (s.setResultAndFlag x b f).i = s.i := rfl
@[simp] theorem setResultAndFlag_pc (x : RegIdx) (b f : Byte) : (s.setResultAndFlag x b f).pc = s.pc := rfl
@[simp] theorem setResultAndFlag_stack (x : RegIdx) (b f : Byte) : (s.setResultAndFlag x b f).stack = s.stack := rfl
@[simp] theorem setResultAndFlag_mem (x : RegIdx) (b f : Byte) : (s.setResultAndFlag x b f).mem = s.mem := rfl
@[simp] theorem setResultAndFlag_disp (x : RegIdx) (b f : Byte) : (s.setResultAndFlag x b f).disp = s.disp := rfl
@[simp] theorem setResultAndFlag_status (x : RegIdx) (b f : Byte) : (s.setResultAndFlag x b f).status = s.status := rfl
@[simp] theorem setResultAndFlag_out (x : RegIdx) (b f : Byte) : (s.setResultAndFlag x b f).out = s.out := rfl
@[simp] theorem setResultAndFlag_draws (x : RegIdx) (b f : Byte) : (s.setResultAndFlag x b f).draws = s.draws := rfl
@[simp] theorem setResultAndFlag_cfg (x : RegIdx) (b f : Byte) : (s.setResultAndFlag x b f).cfg = s.cfg := rfl

@[simp] theorem setI_v (a : Word) : (s.setI a).v = s.v := rfl
@[simp] theorem setI_i (a : Word) : (s.setI a).i = a := rfl
@[simp] theorem setI_pc (a : Word) : (s.setI a).pc = s.pc := rfl
@[simp] theorem setI_stack (a : Word) : (s.setI a).stack = s.stack := rfl
@[simp] theorem setI_mem (a : Word) : (s.setI a).mem = s.mem := rfl
@[simp] theorem setI_disp (a : Word) : (s.setI a).disp = s.disp := rfl
@[simp] theorem setI_status (a : Word) : (s.setI a).status = s.status := rfl
@[simp] theorem setI_out (a : Word) : (s.setI a).out = s.out := rfl
@[simp] theorem setI_draws (a : Word) : (s.setI a).draws = s.draws := rfl
@[simp] theorem setI_cfg (a : Word) : (s.setI a).cfg = s.cfg := rfl

@[simp] theorem setPc_v (a : Word) : (s.setPc a).v = s.v := rfl
@[simp] theorem setPc_i (a : Word) : (s.setPc a).i = s.i := rfl
@[simp] theorem setPc_pc (a : Word) : (s.setPc a).pc = a := rfl
@[simp] theorem setPc_stack (a : Word) : (s.setPc a).stack = s.stack := rfl
@[simp] theorem setPc_mem (a : Word) : (s.setPc a).mem = s.mem := rfl
@[simp] theorem setPc_disp (a : Word) : (s.setPc a).disp = s.disp := rfl
@[simp] theorem setPc_status (a : Word) : (s.setPc a).status = s.status := rfl
@[simp] theorem setPc_out (a : Word) : (s.setPc a).out = s.out := rfl
@[simp] theorem setPc_draws (a : Word) : (s.setPc a).draws = s.draws := rfl
@[simp] theorem setPc_cfg (a : Word) : (s.setPc a).cfg = s.cfg := rfl

@[simp] theorem skip_v : (s.skip).v = s.v := rfl
@[simp] theorem skip_i : (s.skip).i = s.i := rfl
@[simp] theorem skip_pc : (s.skip).pc = s.pc + 2 := rfl
@[simp] theorem skip_stack : (s.skip).stack = s.stack := rfl
@[simp] theorem skip_mem : (s.skip).mem = s.mem := rfl
@[simp] theorem skip_disp : (s.skip).disp = s.disp := rfl
@[simp] theorem skip_status : (s.skip).status = s.status := rfl
@[simp] theorem skip_out : (s.skip).out = s.out := rfl
@[simp] theorem skip_draws : (s.skip).draws = s.draws := rfl
@[simp] theorem skip_cfg : (s.skip).cfg = s.cfg := rfl

@[simp] theorem push_v (a : Word) : (s.push a).v = s.v := rfl
@[simp] theorem push_i (a : Word) : (s.push a).i = s.i := rfl
@[simp] theorem push_pc (a : Word) : (s.push a).pc = s.pc := rfl
@[simp] theorem push_stack (a : Word) : (s.push a).stack = a :: s.stack := rfl
@[simp] theorem push_mem (a : Word) : (s.push a).mem = s.mem := rfl
@[simp] theorem push_disp (a : Word) : (s.push a).disp = s.disp := rfl
@[simp] theorem push_status (a : Word) : (s.push a).status = s.status := rfl
@[simp] theorem push_out (a : Word) : (s.push a).out = s.out := rfl
@[simp] theorem push_draws (a : Word) : (s.push a).draws = s.draws := rfl
@[simp] theorem push_cfg (a : Word) : (s.push a).cfg = s.cfg := rfl

@[simp] theorem storeRegs_v (n : Nat) : (s.storeRegs n).v = s.v := rfl
@[simp] theorem storeRegs_i (n : Nat) : (s.storeRegs n).i = s.i := rfl
@[simp] theorem storeRegs_pc (n : Nat) : (s.storeRegs n).pc = s.pc := rfl
@[simp] theorem storeRegs_stack (n : Nat) : (s.storeRegs n).stack = s.stack := rfl
@[simp] theorem storeRegs_mem (n : Nat) : (s.storeRegs n).mem = s.mem.writeBlock s.i.toNat (s.regBlock n) := rfl
@[simp] theorem storeRegs_disp (n : Nat) : (s.storeRegs n).disp = s.disp := rfl
@[simp] theorem storeRegs_status (n : Nat) : (s.storeRegs n).status = s.status := rfl
@[simp] theorem storeRegs_out (n : Nat) : (s.storeRegs n).out = s.out := rfl
@[simp] theorem storeRegs_draws (n : Nat) : (s.storeRegs n).draws = s.draws := rfl
@[simp] theorem storeRegs_cfg (n : Nat) : (s.storeRegs n).cfg = s.cfg := rfl

@[simp] theorem markDirty_v : (s.markDirty).v = s.v := rfl
@[simp] theorem markDirty_i : (s.markDirty).i = s.i := rfl
@[simp] theorem markDirty_pc : (s.markDirty).pc = s.pc := rfl
@[simp] theorem markDirty_stack : (s.markDirty).stack = s.stack := rfl
@[simp] theorem markDirty_mem : (s.markDirty).mem = s.mem := rfl
@[simp] theorem markDirty_disp : (s.markDirty).disp = s.disp := rfl
@[simp] theorem markDirty_status : (s.markDirty).status = s.status := rfl
@[simp] theorem markDirty_out : (s.markDirty).out = { s.out with dirty := true } := rfl
@[simp] theorem markDirty_draws : (s.markDirty).draws = s.draws := rfl
@[simp] theorem markDirty_cfg : (s.markDirty).cfg = s.cfg := rfl

@[simp] theorem emitUnimplemented_v (w : Word) : (s.emitUnimplemented w).v = s.v := rfl
@[simp] theorem emitUnimplemented_i (w : Word) : (s.emitUnimplemented w).i = s.i := rfl
@[simp] theorem emitUnimplemented_pc (w : Word) : (s.emitUnimplemented w).pc = s.pc := rfl
@[simp] theorem emitUnimplemented_stack (w : Word) : (s.emitUnimplemented w).stack = s.stack := rfl
@[simp] theorem emitUnimplemented_mem (w : Word) : (s.emitUnimplemented w).mem = s.mem := rfl
@[simp] theorem emitUnimplemented_disp (w : Word) : (s.emitUnimplemented w).disp = s.disp := rfl
@[simp] theorem emitUnimplemented_status (w : Word) : (s.emitUnimplemented w).status = s.status := rfl
@[simp] theorem emitUnimplemented_out (w : Word) : (s.emitUnimplemented w).out = { s.out with diag := some { word := w, pc := s.pc } } := rfl
@[simp] theorem emitUnimplemented_draws (w : Word) : (s.emitUnimplemented w).draws = s.draws := rfl
@[simp] theorem emitUnimplemented_cfg (w : Word) : (s.emitUnimplemented w).cfg = s.cfg := rfl

@[simp] theorem clearOutputs_v : (s.clearOutputs).v = s.v := rfl
@[simp] theorem clearOutputs_i : (s.clearOutputs).i = s.i := rfl
@[simp] theorem clearOutputs_pc : (s.clearOutputs).pc = s.pc := rfl
@[simp] theorem clearOutputs_stack : (s.clearOutputs).stack = s.stack := rfl
@[simp] theorem clearOutputs_mem : (s.clearOutputs).mem = s.mem := rfl
@[simp] theorem clearOutputs_disp : (s.clearOutputs).disp = s.disp := rfl
@[simp] theorem clearOutputs_status : (s.clearOutputs).status = s.status := rfl
@[simp] theorem clearOutputs_out : (s.clearOutputs).out = StepOutput.none := rfl
@[simp] theorem clearOutputs_draws : (s.clearOutputs).draws = s.draws := rfl
@[simp] theorem clearOutputs_cfg : (s.clearOutputs).cfg = s.cfg := rfl

@[simp] theorem halt_v (c : Cause) : (s.halt c).v = s.v := rfl
@[simp] theorem halt_i (c : Cause) : (s.halt c).i = s.i := rfl
@[simp] theorem halt_pc (c : Cause) : (s.halt c).pc = s.pc := rfl
@[simp] theorem halt_stack (c : Cause) : (s.halt c).stack = s.stack := rfl
@[simp] theorem halt_mem (c : Cause) : (s.halt c).mem = s.mem := rfl
@[simp] theorem halt_disp (c : Cause) : (s.halt c).disp = s.disp := rfl
@[simp] theorem halt_status (c : Cause) : (s.halt c).status = .halted c := rfl
@[simp] theorem halt_out (c : Cause) : (s.halt c).out = s.out := rfl
@[simp] theorem halt_draws (c : Cause) : (s.halt c).draws = s.draws := rfl
@[simp] theorem halt_cfg (c : Cause) : (s.halt c).cfg = s.cfg := rfl

@[simp] theorem drawSprite_i (x y : RegIdx) (n : Nibble) : (s.drawSprite x y n).i = s.i := rfl
@[simp] theorem drawSprite_pc (x y : RegIdx) (n : Nibble) : (s.drawSprite x y n).pc = s.pc := rfl
@[simp] theorem drawSprite_stack (x y : RegIdx) (n : Nibble) : (s.drawSprite x y n).stack = s.stack := rfl
@[simp] theorem drawSprite_mem (x y : RegIdx) (n : Nibble) : (s.drawSprite x y n).mem = s.mem := rfl
@[simp] theorem drawSprite_disp (x y : RegIdx) (n : Nibble) : (s.drawSprite x y n).disp = (s.disp.draw (s.getV x).toNat (s.getV y).toNat (s.mem.readBlock s.i.toNat n.toNat)).1 := rfl
@[simp] theorem drawSprite_status (x y : RegIdx) (n : Nibble) : (s.drawSprite x y n).status = s.status := rfl
@[simp] theorem drawSprite_out (x y : RegIdx) (n : Nibble) : (s.drawSprite x y n).out = { s.out with dirty := true } := rfl
@[simp] theorem drawSprite_draws (x y : RegIdx) (n : Nibble) : (s.drawSprite x y n).draws = s.draws := rfl
@[simp] theorem drawSprite_cfg (x y : RegIdx) (n : Nibble) : (s.drawSprite x y n).cfg = s.cfg := rfl

@[simp] theorem skipIf_v (c : Bool) : (s.skipIf c).v = s.v := by cases c <;> rfl
@[simp] theorem skipIf_i (c : Bool) : (s.skipIf c).i = s.i := by cases c <;> rfl
@[simp] theorem skipIf_stack (c : Bool) : (s.skipIf c).stack = s.stack := by cases c <;> rfl
@[simp] theorem skipIf_mem (c : Bool) : (s.skipIf c).mem = s.mem := by cases c <;> rfl
@[simp] theorem skipIf_disp (c : Bool) : (s.skipIf c).disp = s.disp := by cases c <;> rfl
@[simp] theorem skipIf_status (c : Bool) : (s.skipIf c).status = s.status := by cases c <;> rfl
@[simp] theorem skipIf_out (c : Bool) : (s.skipIf c).out = s.out := by cases c <;> rfl
@[simp] theorem skipIf_draws (c : Bool) : (s.skipIf c).draws = s.draws := by cases c <;> rfl
@[simp] theorem skipIf_cfg (c : Bool) : (s.skipIf c).cfg = s.cfg := by cases c <;> rfl
@[simp] theorem skipIf_pc (c : Bool) : (s.skipIf c).pc = if c then s.pc + 2 else s.pc := by cases c <;> rfl

@[simp] theorem loadRegs_i (n : Nat) : (s.loadRegs n).i = s.i := by
  induction n with
  | zero => rfl
  | succ k ih => simpa [State.loadRegs] using ih
@[simp] theorem loadRegs_pc (n : Nat) : (s.loadRegs n).pc = s.pc := by
  induction n with
  | zero => rfl
  | succ k ih => simpa [State.loadRegs] using ih
@[simp] theorem loadRegs_stack (n : Nat) : (s.loadRegs n).stack = s.stack := by
  induction n with
  | zero => rfl
  | succ k ih => simpa [State.loadRegs] using ih
@[simp] theorem loadRegs_mem (n : Nat) : (s.loadRegs n).mem = s.mem := by
  induction n with
  | zero => rfl
  | succ k ih => simpa [State.loadRegs] using ih
@[simp] theorem loadRegs_disp (n : Nat) : (s.loadRegs n).disp = s.disp := by
  induction n with
  | zero => rfl
  | succ k ih => simpa [State.loadRegs] using ih
@[simp] theorem loadRegs_status (n : Nat) : (s.loadRegs n).status = s.status := by
  induction n with
  | zero => rfl
  | succ k ih => simpa [State.loadRegs] using ih
@[simp] theorem loadRegs_out (n : Nat) : (s.loadRegs n).out = s.out := by
  induction n with
  | zero => rfl
  | succ k ih => simpa [State.loadRegs] using ih
@[simp] theorem loadRegs_draws (n : Nat) : (s.loadRegs n).draws = s.draws := by
  induction n with
  | zero => rfl
  | succ k ih => simpa [State.loadRegs] using ih
@[simp] theorem loadRegs_cfg (n : Nat) : (s.loadRegs n).cfg = s.cfg := by
  induction n with
  | zero => rfl
  | succ k ih => simpa [State.loadRegs] using ih

/-! ### Reading a register -/

/-- Two states with the same register file read the same. -/
theorem getV_congr {t : State} (h : t.v = s.v) (r : RegIdx) : t.getV r = s.getV r := by
  simp [State.getV, h]

theorem getV_setV (x r : RegIdx) (b : Byte) : (s.setV x b).getV r = if r = x then b else s.getV r := by
  simp only [State.getV, State.setV, Fin.getElem_fin, Vector.getElem_set, Fin.ext_iff, eq_comm]

@[simp] theorem getV_setV_self (x : RegIdx) (b : Byte) : (s.setV x b).getV x = b := by
  simp [getV_setV]

theorem getV_setV_ne {x r : RegIdx} (b : Byte) (h : r ≠ x) : (s.setV x b).getV r = s.getV r := by
  simp [getV_setV, h]

/-- The flag is what VF holds afterwards, whatever the destination; the result is in V[x] unless that is VF
(10_state.md R26). -/
theorem getV_setResultAndFlag (x r : RegIdx) (b f : Byte) :
    (s.setResultAndFlag x b f).getV r = if r = vf then f else if r = x then b else s.getV r := by
  simp [State.setResultAndFlag, getV_setV]

@[simp] theorem getV_setI (a : Word) (r : RegIdx) : (s.setI a).getV r = s.getV r := rfl
@[simp] theorem getV_setPc (a : Word) (r : RegIdx) : (s.setPc a).getV r = s.getV r := rfl
@[simp] theorem getV_skip (r : RegIdx) : (s.skip).getV r = s.getV r := rfl
@[simp] theorem getV_push (a : Word) (r : RegIdx) : (s.push a).getV r = s.getV r := rfl
@[simp] theorem getV_storeRegs (n : Nat) (r : RegIdx) : (s.storeRegs n).getV r = s.getV r := rfl
@[simp] theorem getV_markDirty (r : RegIdx) : (s.markDirty).getV r = s.getV r := rfl
@[simp] theorem getV_emitUnimplemented (w : Word) (r : RegIdx) : (s.emitUnimplemented w).getV r = s.getV r := rfl
@[simp] theorem getV_clearOutputs (r : RegIdx) : (s.clearOutputs).getV r = s.getV r := rfl
@[simp] theorem getV_halt (c : Cause) (r : RegIdx) : (s.halt c).getV r = s.getV r := rfl
@[simp] theorem getV_skipIf (c : Bool) (r : RegIdx) : (s.skipIf c).getV r = s.getV r := by cases c <;> rfl

/-- DRW changes no register but VF (44_display.md R171). -/
theorem getV_drawSprite (x y r : RegIdx) (n : Nibble) :
    (s.drawSprite x y n).getV r = if r = vf then
      collisionFlag (s.disp.draw (s.getV x).toNat (s.getV y).toNat (s.mem.readBlock s.i.toNat n.toNat)).2
      else s.getV r := by
  simp only [State.drawSprite, getV_markDirty, getV_setV]
  rfl

/-- LD_REGS: V[r] is the byte at I + r for r below the count; the others are unchanged (43_index_and_memory.md R163). -/
theorem getV_loadRegs (n : Nat) (hn : n ≤ 16) (r : RegIdx) :
    (s.loadRegs n).getV r = if r.val < n then s.mem.read (s.i.toNat + r.val) else s.getV r := by
  induction n with
  | zero => simp [State.loadRegs]
  | succ k ih =>
    have hk : k < 16 := by omega
    rw [State.loadRegs, getV_setV, ih (by omega)]
    have e : (r = Fin.ofNat 16 k) ↔ r.val = k := by
      simp [Fin.ext_iff, Nat.mod_eq_of_lt hk]
    by_cases h : r.val = k
    · rw [if_pos (e.2 h), if_pos (by omega), h]
    · simp only [e, h, if_false]
      by_cases h2 : r.val < k
      · simp [h2, Nat.lt_succ_of_lt h2]
      · have : ¬ r.val < k + 1 := by omega
        simp [h2, this]

/-- The block of registers that ST_REGS stores has the registers in order. -/
theorem regBlock_length (n : Nat) (hn : n ≤ 16) : (s.regBlock n).length = n := by
  simp [State.regBlock, hn]

theorem regBlock_get (n : Nat) (r : RegIdx) (hr : r.val < n) :
    (s.regBlock n)[r.val]? = some (s.getV r) := by
  simp [State.regBlock, State.getV, hr]

end Sys2Proof.Machine
end

