-- ==== Sys2Proof/Laws/Memory.lean ====
section
/-! SUPPORT. The laws of memory: read over write, the canonical form kept, equal memories equal lists. -/

namespace Sys2Proof.Machine

open Sys2Proof

/-- A well-formed list that starts later is well-formed from any earlier address. -/
theorem wfFrom_mono {lo lo' : Nat} (m : Memory) (h : lo' ≤ lo) (hm : Memory.wfFrom lo m = true) :
    Memory.wfFrom lo' m = true := by
  cases m with
  | nil => rfl
  | cons c m =>
    simp only [Memory.wfFrom, Bool.and_eq_true, decide_eq_true_eq] at hm ⊢
    exact ⟨⟨⟨h.trans hm.1.1.1, hm.1.1.2⟩, hm.1.2⟩, hm.2⟩

/-- Below the first listed address everything is unlisted. -/
theorem read_below (m : Memory) (lo a : Nat) (hm : Memory.wfFrom lo m = true) (h : a < lo) :
    Memory.read m a = Memory.unlisted := by
  induction m generalizing lo with
  | nil => rfl
  | cons c m ih =>
    obtain ⟨k, b⟩ := c
    simp only [Memory.wfFrom, Bool.and_eq_true, decide_eq_true_eq] at hm
    have hk : a ≠ k := by omega
    simp only [Memory.read, hk, if_false]
    exact ih (k + 1) hm.2 (by omega)

/-- Another address is left alone by a write. -/
theorem read_write_ne (m : Memory) (a a' : Nat) (b : Byte) (h : a' ≠ a) :
    Memory.read (Memory.write m a b) a' = Memory.read m a' := by
  induction m with
  | nil =>
    simp only [Memory.write]
    split <;> simp [Memory.read, h]
  | cons c m ih =>
    obtain ⟨k, d⟩ := c
    simp only [Memory.write]
    split
    · split
      · rfl
      · simp [Memory.read, h]
    · split
      · rename_i hk
        subst hk
        split <;> simp [Memory.read, h]
      · simp only [Memory.read, ih]

/-- A read after a write of the same address gives the byte written, in a canonical memory. -/
theorem read_write_self (m : Memory) (lo a : Nat) (b : Byte) (hm : Memory.wfFrom lo m = true) :
    Memory.read (Memory.write m a b) a = b := by
  induction m generalizing lo with
  | nil =>
    simp only [Memory.write]
    split
    · simp_all [Memory.read]
    · simp [Memory.read]
  | cons c m ih =>
    obtain ⟨k, d⟩ := c
    have hm' := hm
    simp only [Memory.wfFrom, Bool.and_eq_true, decide_eq_true_eq] at hm'
    simp only [Memory.write]
    split
    · rename_i hak
      split
      · rename_i hb
        rw [hb]
        exact read_below _ k a
          (by simp only [Memory.wfFrom, Bool.and_eq_true, decide_eq_true_eq]
              exact ⟨⟨⟨Nat.le_refl k, hm'.1.1.2⟩, hm'.1.2⟩, hm'.2⟩) hak
      · simp [Memory.read]
    · split
      · rename_i hk
        subst hk
        split
        · rename_i hb
          rw [hb]
          exact read_below _ (a + 1) a hm'.2 (by omega)
        · simp [Memory.read]
      · rename_i hk
        simp only [Memory.read, hk, if_false]
        exact ih (k + 1) hm'.2

/-- A write in range keeps the canonical form. -/
theorem wfFrom_write (m : Memory) (lo a : Nat) (b : Byte) (hm : Memory.wfFrom lo m = true) (hlo : lo ≤ a)
    (ha : a < memSize) : Memory.wfFrom lo (Memory.write m a b) = true := by
  induction m generalizing lo with
  | nil =>
    simp only [Memory.write]
    split
    · rfl
    · simp_all [Memory.wfFrom]
  | cons c m ih =>
    obtain ⟨k, d⟩ := c
    have hm' := hm
    simp only [Memory.wfFrom, Bool.and_eq_true, decide_eq_true_eq] at hm'
    simp only [Memory.write]
    split
    · split
      · exact hm
      · rename_i hak hb
        simp only [Memory.wfFrom, Bool.and_eq_true, decide_eq_true_eq]
        exact ⟨⟨⟨hlo, ha⟩, hb⟩, ⟨⟨⟨hak, hm'.1.1.2⟩, hm'.1.2⟩, hm'.2⟩⟩
    · split
      · rename_i hk
        subst hk
        split
        · exact wfFrom_mono m (by omega) hm'.2
        · rename_i hb
          simp only [Memory.wfFrom, Bool.and_eq_true, decide_eq_true_eq]
          exact ⟨⟨⟨hlo, ha⟩, hb⟩, hm'.2⟩
      · simp only [Memory.wfFrom, Bool.and_eq_true, decide_eq_true_eq]
        exact ⟨⟨⟨hm'.1.1.1, hm'.1.1.2⟩, hm'.1.2⟩, ih (k + 1) hm'.2 (by omega)⟩

theorem wf_write (m : Memory) (a : Nat) (b : Byte) (hm : m.wf = true) (ha : a < memSize) :
    (Memory.write m a b).wf = true :=
  wfFrom_write m 0 a b hm (Nat.zero_le a) ha

/-- A block write in range keeps the canonical form. -/
theorem wf_writeBlock (bs : List Byte) (m : Memory) (base : Nat) (hm : m.wf = true)
    (h : base + bs.length ≤ memSize) : (m.writeBlock base bs).wf = true := by
  induction bs generalizing m base with
  | nil => exact hm
  | cons b bs ih =>
    simp only [List.length_cons] at h
    exact ih _ _ (wf_write m base b hm (by omega)) (by omega)

/-- Outside the block every address reads as before. -/
theorem read_writeBlock_out (bs : List Byte) (m : Memory) (base a : Nat)
    (h : a < base ∨ base + bs.length ≤ a) : (m.writeBlock base bs).read a = m.read a := by
  induction bs generalizing m base with
  | nil => rfl
  | cons b bs ih =>
    simp only [List.length_cons] at h
    rw [Memory.writeBlock, ih _ _ (by omega), read_write_ne _ _ _ _ (by omega)]

/-- Inside the block each address reads the byte of the block there. -/
theorem read_writeBlock_in (bs : List Byte) (m : Memory) (base k : Nat) (b : Byte) (hm : m.wf = true)
    (h : base + bs.length ≤ memSize) (hk : bs[k]? = some b) : (m.writeBlock base bs).read (base + k) = b := by
  induction bs generalizing m base k with
  | nil => simp at hk
  | cons c bs ih =>
    simp only [List.length_cons] at h
    rw [Memory.writeBlock]
    cases k with
    | zero =>
      rw [read_writeBlock_out _ _ _ _ (by omega)]
      simp only [List.getElem?_cons_zero, Option.some.injEq] at hk
      subst hk
      exact read_write_self m 0 base c hm
    | succ k =>
      have := ih (Memory.write m base c) (base + 1) k (wf_write m base c hm (by omega)) (by omega) (by simpa using hk)
      rwa [show base + 1 + k = base + (k + 1) by omega] at this

/-- The bytes a block read gives. -/
theorem readBlock_get (m : Memory) (base n k : Nat) (h : k < n) :
    (m.readBlock base n)[k]? = some (m.read (base + k)) := by
  induction n generalizing base k with
  | zero => omega
  | succ n ih =>
    cases k with
    | zero => simp [Memory.readBlock]
    | succ k =>
      simp only [Memory.readBlock, List.getElem?_cons_succ]
      rw [ih (base + 1) k (by omega), show base + 1 + k = base + (k + 1) by omega]

theorem readBlock_length (m : Memory) (base n : Nat) : (m.readBlock base n).length = n := by
  induction n generalizing base with
  | zero => rfl
  | succ n ih => simp [Memory.readBlock, ih]

end Sys2Proof.Machine
end

