-- ==== Sys2Proof/Laws/Draw.lean ====
section
/-! SUPPORT. What a draw does, pixel by pixel: no pixel is targeted twice (spec/44_display.md R176 (a)), so the display
after is the display before with the covered pixels flipped, and a collision is a covered pixel that was set. -/

namespace Sys2Proof.Machine

open Sys2Proof

@[simp] theorem pixel_blank (cx : Fin 64) (cy : Fin 32) : Display.blank.pixel cx cy = false := by
  simp [Display.pixel, Display.blank]

theorem pixel_setPixel (d : Display) (cx cx' : Fin 64) (cy cy' : Fin 32) (on : Bool) :
    (d.setPixel cx cy on).pixel cx' cy' = if cx' = cx ∧ cy' = cy then on else d.pixel cx' cy' := by
  simp only [Display.pixel, Display.setPixel, Fin.getElem_fin, Vector.getElem_set]
  by_cases h : cx' = cx
  · subst h
    by_cases h2 : cy' = cy
    · subst h2; simp
    · have : ¬ cy.val = cy'.val := fun e => h2 (Fin.ext e.symm)
      simp [h2, this]
  · have : ¬ cx.val = cx'.val := fun e => h (Fin.ext e.symm)
    simp [h, this]

/-- Two displays with the same pixels are the same. -/
theorem display_ext {d e : Display} (h : ∀ cx cy, d.pixel cx cy = e.pixel cx cy) : d = e := by
  apply Vector.ext
  intro i hi
  apply Vector.ext
  intro j hj
  exact h ⟨i, hi⟩ ⟨j, hj⟩

theorem pixel_xorPixel (p : DrawState) (cx cx' : Fin 64) (cy cy' : Fin 32) (bit : Bool) :
    (p.xorPixel cx cy bit).1.pixel cx' cy' =
      (p.1.pixel cx' cy' ^^ (bit && decide (cx' = cx ∧ cy' = cy))) := by
  cases bit with
  | false => simp [DrawState.xorPixel]
  | true =>
    simp only [DrawState.xorPixel, if_true, pixel_setPixel]
    by_cases h : cx' = cx ∧ cy' = cy
    · obtain ⟨rfl, rfl⟩ := h; simp
    · simp [h]

theorem collision_xorPixel (p : DrawState) (cx : Fin 64) (cy : Fin 32) (bit : Bool) :
    (p.xorPixel cx cy bit).2 = (p.2 || (bit && p.1.pixel cx cy)) := by
  cases bit <;> simp [DrawState.xorPixel]

/-- A row of bits covers (cx, cy) when one of its first `k` bits is 1 and lands there. -/
def RowCovers (vx : Nat) (y : Nat) (b : Byte) (k : Nat) (cx : Fin 64) (cy : Fin 32) : Prop :=
  ∃ j, j < k ∧ spriteBit b j = true ∧ cx = colOf (vx + j) ∧ cy = rowOf y

theorem rowCovers_succ (vx y : Nat) (b : Byte) (k : Nat) (cx : Fin 64) (cy : Fin 32) :
    RowCovers vx y b (k + 1) cx cy ↔
      RowCovers vx y b k cx cy ∨ (spriteBit b k = true ∧ cx = colOf (vx + k) ∧ cy = rowOf y) := by
  constructor
  · rintro ⟨j, hj, h⟩
    rcases Nat.lt_succ_iff_lt_or_eq.1 hj with h' | rfl
    · exact .inl ⟨j, h', h⟩
    · exact .inr h
  · rintro (⟨j, hj, h⟩ | h)
    · exact ⟨j, by omega, h⟩
    · exact ⟨k, by omega, h⟩

/-- Two different columns of a row are different modulo 64. -/
theorem colOf_ne (vx j k : Nat) (hj : j < k) (hk : k < 64) : colOf (vx + j) ≠ colOf (vx + k) := by
  intro h
  have := congrArg Fin.val h
  simp only [colOf, Fin.ofNat] at this
  omega

/-- Two different rows of a sprite are different modulo 32. -/
theorem rowOf_ne (vy j k : Nat) (hj : j < k) (hk : k < 32) : rowOf (vy + j) ≠ rowOf (vy + k) := by
  intro h
  have := congrArg Fin.val h
  simp only [rowOf, Fin.ofNat] at this
  omega

/-- What the first `k` bits of one row do: the covered pixels are flipped, the others left alone, and a collision is a
covered pixel that was set. -/
theorem drawBits_spec (p : DrawState) (vx y : Nat) (b : Byte) (k : Nat) (hk : k ≤ 8) :
    (∀ cx cy, (RowCovers vx y b k cx cy → (p.drawBits vx (rowOf y) b k).1.pixel cx cy = !p.1.pixel cx cy) ∧
      (¬ RowCovers vx y b k cx cy → (p.drawBits vx (rowOf y) b k).1.pixel cx cy = p.1.pixel cx cy)) ∧
    ((p.drawBits vx (rowOf y) b k).2 = true ↔
      p.2 = true ∨ ∃ cx cy, RowCovers vx y b k cx cy ∧ p.1.pixel cx cy = true) := by
  induction k with
  | zero =>
    have hn : ∀ cx cy, ¬ RowCovers vx y b 0 cx cy := by rintro cx cy ⟨j, hj, -⟩; omega
    refine ⟨fun cx cy => ⟨fun h => absurd h (hn cx cy), fun _ => rfl⟩, ?_⟩
    simp [DrawState.drawBits, hn]
  | succ k ih =>
    obtain ⟨ih1, ih2⟩ := ih (by omega)
    have hfresh : ¬ RowCovers vx y b k (colOf (vx + k)) (rowOf y) := by
      rintro ⟨j, hj, -, hc, -⟩
      exact colOf_ne vx j k hj (by omega) hc.symm
    refine ⟨fun cx cy => ?_, ?_⟩
    · rw [rowCovers_succ]
      simp only [DrawState.drawBits, pixel_xorPixel]
      by_cases hc : cx = colOf (vx + k) ∧ cy = rowOf y
      · obtain ⟨rfl, rfl⟩ := hc
        rw [(ih1 _ _).2 hfresh]
        cases hb : spriteBit b k <;> simp [hfresh]
      · have hd : decide (cx = colOf (vx + k) ∧ cy = rowOf y) = false := decide_eq_false hc
        have he : ¬ (spriteBit b k = true ∧ cx = colOf (vx + k) ∧ cy = rowOf y) := fun h => hc h.2
        simp only [hd, Bool.and_false, Bool.xor_false, he, or_false]
        exact ih1 cx cy
    · simp only [DrawState.drawBits, collision_xorPixel, Bool.or_eq_true, Bool.and_eq_true, ih2,
        (ih1 _ _).2 hfresh, rowCovers_succ]
      constructor
      · rintro ((h | ⟨cx, cy, h, hp⟩) | ⟨hb, hp⟩)
        · exact .inl h
        · exact .inr ⟨cx, cy, .inl h, hp⟩
        · exact .inr ⟨_, _, .inr ⟨hb, rfl, rfl⟩, hp⟩
      · rintro (h | ⟨cx, cy, h | ⟨hb, rfl, rfl⟩, hp⟩)
        · exact .inl (.inl h)
        · exact .inl (.inr ⟨cx, cy, h, hp⟩)
        · exact .inr ⟨hb, hp⟩

/-- The rows `bs`, drawn from row y on, cover (cx, cy). -/
def RowsCover (vx y : Nat) (bs : List Byte) (cx : Fin 64) (cy : Fin 32) : Prop :=
  ∃ row b, bs[row]? = some b ∧ RowCovers vx (y + row) b 8 cx cy

theorem rowsCover_cons (vx y : Nat) (b : Byte) (bs : List Byte) (cx : Fin 64) (cy : Fin 32) :
    RowsCover vx y (b :: bs) cx cy ↔ RowCovers vx y b 8 cx cy ∨ RowsCover vx (y + 1) bs cx cy := by
  constructor
  · rintro ⟨row, c, hc, h⟩
    cases row with
    | zero =>
      simp only [List.getElem?_cons_zero, Option.some.injEq] at hc
      subst hc
      exact .inl h
    | succ r => exact .inr ⟨r, c, by simpa using hc, by rwa [show y + 1 + r = y + (r + 1) by omega]⟩
  · rintro (h | ⟨r, c, hc, h⟩)
    · exact ⟨0, b, by simp, h⟩
    · exact ⟨r + 1, c, by simpa using hc, by rwa [show y + 1 + r = y + (r + 1) by omega] at h⟩

/-- What the rows of a sprite do, at most 32 of them: the covered pixels are flipped, the others left alone, and a
collision is a covered pixel that was set. -/
theorem drawRows_spec (bs : List Byte) (p : DrawState) (vx y : Nat) (hn : bs.length ≤ 32) :
    (∀ cx cy, (RowsCover vx y bs cx cy → (p.drawRows vx y bs).1.pixel cx cy = !p.1.pixel cx cy) ∧
      (¬ RowsCover vx y bs cx cy → (p.drawRows vx y bs).1.pixel cx cy = p.1.pixel cx cy)) ∧
    ((p.drawRows vx y bs).2 = true ↔ p.2 = true ∨ ∃ cx cy, RowsCover vx y bs cx cy ∧ p.1.pixel cx cy = true) := by
  induction bs generalizing p y with
  | nil =>
    have hno : ∀ cx cy, ¬ RowsCover vx y [] cx cy := by rintro cx cy ⟨row, b, h, -⟩; simp at h
    refine ⟨fun cx cy => ⟨fun h => absurd h (hno cx cy), fun _ => rfl⟩, ?_⟩
    simp [DrawState.drawRows, hno]
  | cons b bs ih =>
    simp only [List.length_cons] at hn
    obtain ⟨r1, r2⟩ := drawBits_spec p vx y b 8 (Nat.le_refl 8)
    obtain ⟨i1, i2⟩ := ih (p.drawBits vx (rowOf y) b 8) (y + 1) (by omega)
    have hdisj : ∀ cx cy, RowCovers vx y b 8 cx cy → ¬ RowsCover vx (y + 1) bs cx cy := by
      rintro cx cy ⟨j, -, -, -, hy⟩ ⟨row, c, hc, ⟨j', -, -, -, hy'⟩⟩
      have hlt : row < bs.length := (List.getElem?_eq_some_iff.1 hc).1
      refine rowOf_ne y 0 (row + 1) (by omega) (by omega) ?_
      rw [Nat.add_zero, ← hy, hy', show y + 1 + row = y + (row + 1) by omega]
    refine ⟨fun cx cy => ?_, ?_⟩
    · rw [rowsCover_cons]
      simp only [DrawState.drawRows]
      by_cases h1 : RowCovers vx y b 8 cx cy
      · have h2 := hdisj cx cy h1
        simp [h1, (i1 cx cy).2 h2, (r1 cx cy).1 h1]
      · simp only [h1, false_or]
        rw [← (r1 cx cy).2 h1]
        exact i1 cx cy
    · simp only [DrawState.drawRows, i2, r2, rowsCover_cons]
      constructor
      · rintro ((h | ⟨cx, cy, h, hp⟩) | ⟨cx, cy, h, hp⟩)
        · exact .inl h
        · exact .inr ⟨cx, cy, .inl h, hp⟩
        · by_cases h1 : RowCovers vx y b 8 cx cy
          · exact absurd h (hdisj cx cy h1)
          · exact .inr ⟨cx, cy, .inr h, by rwa [(r1 cx cy).2 h1] at hp⟩
      · rintro (h | ⟨cx, cy, h | h, hp⟩)
        · exact .inl (.inl h)
        · exact .inl (.inr ⟨cx, cy, h, hp⟩)
        · have h1 : ¬ RowCovers vx y b 8 cx cy := fun h' => hdisj cx cy h' h
          exact .inr ⟨cx, cy, h, by rwa [(r1 cx cy).2 h1]⟩

/-- The bit of a sprite byte, as R171 writes it: `(b >> (7 - j)) & 1`. -/
theorem spriteBit_eq (b : Byte) (j : Nat) : spriteBit b j = true ↔ b.toNat / 2 ^ (7 - j) % 2 = 1 := by
  simp [spriteBit, BitVec.getLsbD, Nat.testBit_eq_decide_div_mod_eq]

/-- The rows that DRW reads cover what `SpriteCovers` says. -/
theorem rowsCover_iff (s : State) (x y : RegIdx) (n : Nibble) (cx : Fin 64) (cy : Fin 32) :
    RowsCover (s.getV x).toNat (s.getV y).toNat (s.mem.readBlock s.i.toNat n.toNat) cx cy ↔
      SpriteCovers s x y n cx cy := by
  constructor
  · rintro ⟨row, b, hb, j, hj, hbit, rfl, rfl⟩
    have hrow : row < n.toNat := by
      have := (List.getElem?_eq_some_iff.1 hb).1
      rwa [readBlock_length] at this
    rw [readBlock_get _ _ _ _ hrow, Option.some.injEq] at hb
    subst hb
    exact ⟨row, j, hrow, hj, rfl, rfl, (spriteBit_eq _ _).1 hbit⟩
  · rintro ⟨row, j, hrow, hj, hx, hy, hbit⟩
    exact ⟨row, _, readBlock_get _ _ _ _ hrow, j, hj, (spriteBit_eq _ _).2 hbit, Fin.ext hx, Fin.ext hy⟩

end Sys2Proof.Machine
end

