-- ==== Sys2Proof/Laws/Exec.lean ====
section
/-! SUPPORT. What the fetch, a fatal condition, each meaning with a condition, and a step can answer: one lemma per case,
cited in place of unfolding. -/

namespace Sys2Proof.Machine

open Sys2Proof

variable {s t : State}

/-! ### Taking a fatal condition -/

/-- A fatal condition is a next state that differs in the status alone (60_exceptions.md R213). -/
theorem takeFatal_eq (c : Cause) (s : State) : takeFatal c s = .next (s.halt c) := rfl

/-! ### The meanings that have a condition -/

theorem execRet_empty (h : s.stack = []) : execRet s = .next (s.halt .stackUnderflow) := by
  simp [execRet, h, takeFatal]

theorem execRet_pop (a : Word) (rest : List Word) (h : s.stack = a :: rest) :
    execRet s = .next { s with pc := a, stack := rest } := by
  simp [execRet, h]

theorem stackFull_iff : s.stackFull = true ↔ s.cfg.stackDepth = some s.depth := by
  simp [State.stackFull]

theorem execCall_full (nnn : Addr12) (h : s.cfg.stackDepth = some s.depth) :
    execCall nnn s = .next (s.halt .stackOverflow) := by
  simp [execCall, State.stackFull, h, takeFatal]

theorem execCall_push (nnn : Addr12) (h : s.cfg.stackDepth ≠ some s.depth) :
    execCall nnn s = .next ((s.push s.pc).setPc (zextAddr nnn)) := by
  simp [execCall, State.stackFull, h]

theorem execStRegs_fits (x : RegIdx) (h : s.i.toNat + x.val ≤ 0xFFF) :
    execStRegs x s = .next (s.storeRegs (x.val + 1)) := by
  have : BlockFits s.i.toNat (x.val + 1) := .inr (by simp only [memSize]; omega)
  simp [execStRegs, this]

theorem execStRegs_out (x : RegIdx) (h : 0xFFF < s.i.toNat + x.val) :
    execStRegs x s = .next (s.halt (.outOfBounds .data 0x1000)) := by
  have : ¬ BlockFits s.i.toNat (x.val + 1) := by simp only [BlockFits, memSize]; omega
  simp [execStRegs, this, takeFatal, firstOutOfRange]

theorem execLdRegs_fits (x : RegIdx) (h : s.i.toNat + x.val ≤ 0xFFF) :
    execLdRegs x s = .next (s.loadRegs (x.val + 1)) := by
  have : BlockFits s.i.toNat (x.val + 1) := .inr (by simp only [memSize]; omega)
  simp [execLdRegs, this]

theorem execLdRegs_out (x : RegIdx) (h : 0xFFF < s.i.toNat + x.val) :
    execLdRegs x s = .next (s.halt (.outOfBounds .data 0x1000)) := by
  have : ¬ BlockFits s.i.toNat (x.val + 1) := by simp only [BlockFits, memSize]; omega
  simp [execLdRegs, this, takeFatal, firstOutOfRange]

theorem execDrw_fits (x y : RegIdx) (n : Nibble) (h : n.toNat = 0 ∨ s.i.toNat + n.toNat ≤ 0x1000) :
    execDrw x y n s = .next (s.drawSprite x y n) := by
  have : BlockFits s.i.toNat n.toNat := h
  simp [execDrw, this]

theorem execDrw_out (x y : RegIdx) (n : Nibble) (h0 : n.toNat ≠ 0) (h : 0x1000 < s.i.toNat + n.toNat) :
    execDrw x y n s = .next (s.halt (.outOfBounds .data 0x1000)) := by
  have : ¬ BlockFits s.i.toNat n.toNat := by simp only [BlockFits, memSize]; omega
  simp [execDrw, this, takeFatal, firstOutOfRange]

/-! ### DRW, pixel by pixel -/

theorem drawSprite_pixel (x y : RegIdx) (n : Nibble) (cx : Fin 64) (cy : Fin 32) :
    (SpriteCovers s x y n cx cy → (s.drawSprite x y n).disp.pixel cx cy = !s.disp.pixel cx cy) ∧
    (¬ SpriteCovers s x y n cx cy → (s.drawSprite x y n).disp.pixel cx cy = s.disp.pixel cx cy) := by
  have hlen : (s.mem.readBlock s.i.toNat n.toNat).length ≤ 32 := by
    rw [readBlock_length]; have := n.isLt; omega
  simp only [← rowsCover_iff, drawSprite_disp]
  exact (drawRows_spec _ _ _ _ hlen).1 cx cy

theorem drawSprite_vf (x y : RegIdx) (n : Nibble) :
    (s.drawSprite x y n).getV vf = 1 ∧ (∃ cx cy, SpriteCovers s x y n cx cy ∧ s.disp.pixel cx cy = true) ∨
    (s.drawSprite x y n).getV vf = 0 ∧ ¬ ∃ cx cy, SpriteCovers s x y n cx cy ∧ s.disp.pixel cx cy = true := by
  have hlen : (s.mem.readBlock s.i.toNat n.toNat).length ≤ 32 := by
    rw [readBlock_length]; have := n.isLt; omega
  have h := (drawRows_spec (s.mem.readBlock s.i.toNat n.toNat) (s.disp, false) (s.getV x).toNat (s.getV y).toNat
    hlen).2
  simp only [rowsCover_iff, Bool.false_eq_true, false_or] at h
  rw [getV_drawSprite, if_pos rfl, ← h]
  cases hc : (s.disp.draw (s.getV x).toNat (s.getV y).toNat (s.mem.readBlock s.i.toNat n.toNat)).2 with
  | true => exact .inl ⟨rfl, hc⟩
  | false => exact .inr ⟨rfl, by rw [show DrawState.drawRows _ _ _ _ = Display.draw _ _ _ _ from rfl, hc]; decide⟩

/-! ### The fetch and the step -/

theorem fetch_out (h : 0xFFF ≤ s.pc.toNat) : fetch s = none := by
  simp [fetch, h]

theorem fetch_in (h : s.pc.toNat < 0xFFF) :
    fetch s = some (wordOfBytes (s.mem.read s.pc.toNat) (s.mem.read (s.pc.toNat + 1)), s.setPc (s.pc + 2)) := by
  have : ¬ 0xFFF ≤ s.pc.toNat := by omega
  simp [fetch, this]

/-- In Halted a step is a fault (10_state.md R36). -/
theorem step_halted (c : Cause) (h : s.status = .halted c) : step s = .fault (.halted c) := by
  simp [step, h]

/-- A failed fetch (40_step_cycle.md R102). -/
theorem step_fetch_out (hs : s.status = .running) (h : 0xFFF ≤ s.pc.toNat) :
    step s = .next (s.clearOutputs.halt (.outOfBounds .fetch s.pc)) := by
  have hf : fetch s.clearOutputs = none := fetch_out h
  simp [step, hs, hf, takeFatal]

/-- A step whose fetch succeeds executes the word at PC with PC advanced and the outputs cleared (R105). -/
theorem step_fetch_in (hs : s.status = .running) (h : s.pc.toNat < 0xFFF) :
    step s = execDecoded (decode (wordOfBytes (s.mem.read s.pc.toNat) (s.mem.read (s.pc.toNat + 1))))
      (s.clearOutputs.setPc (s.pc + 2)) := by
  have hf := fetch_in (s := s.clearOutputs) h
  simp only [step, hs, hf]
  rfl

/-- What a step that answers a next state has done: halted at the fetch, or executed the decoded word. -/
theorem step_cases (h : step s = .next t) :
    s.status = .running ∧
    ((0xFFF ≤ s.pc.toNat ∧ t = s.clearOutputs.halt (.outOfBounds .fetch s.pc)) ∨
     (s.pc.toNat < 0xFFF ∧
      execDecoded (decode (wordOfBytes (s.mem.read s.pc.toNat) (s.mem.read (s.pc.toNat + 1))))
        (s.clearOutputs.setPc (s.pc + 2)) = .next t)) := by
  cases hs : s.status with
  | halted c => rw [step_halted c hs] at h; cases h
  | running =>
    refine ⟨rfl, ?_⟩
    by_cases hp : 0xFFF ≤ s.pc.toNat
    · rw [step_fetch_out hs hp] at h
      injection h with h
      exact .inl ⟨hp, h.symm⟩
    · rw [step_fetch_in hs (by omega)] at h
      exact .inr ⟨by omega, h⟩

/-- The post-fetch PC: the fetch address plus 2, with no wrap (10_state.md R29). -/
theorem postFetch_pc (h : s.pc.toNat < 0xFFF) : (s.pc + 2).toNat = s.pc.toNat + 2 := by
  rw [BitVec.toNat_add]
  simp only [BitVec.ofNat_eq_ofNat, BitVec.toNat_ofNat]
  omega

end Sys2Proof.Machine
end

