-- ==== Sys2Proof/Laws/Frame.lean ====
section
/-! SUPPORT. What each update of the state leaves unchanged, what the operand arithmetic gives as numbers, and that no
meaning faults or refuses. -/

namespace Sys2Proof.Machine

open Sys2Proof

variable (s : State)

/-! ### Operand arithmetic as numbers (spec/30_encoding.md R83; spec/10_state.md R27; spec/42_register_alu.md R152) -/

theorem toNat_zextAddr (nnn : Addr12) : (zextAddr nnn).toNat = nnn.toNat := by
  have := nnn.isLt
  simp [zextAddr]
  omega

theorem toNat_maskAddr (sum : Nat) : (maskAddr sum).toNat = sum % 0x1000 := by
  have h : (0xFFF : Nat) = 2 ^ 12 - 1 := rfl
  simp only [maskAddr, addrMask, BitVec.toNat_and, BitVec.toNat_ofNat, BitVec.ofNat_eq_ofNat]
  norm_num
  rw [h, Nat.and_two_pow_sub_one_eq_mod]
  omega

theorem toNat_addWrap (a b : Byte) : (addWrap a b).toNat = (a.toNat + b.toNat) % 256 := by
  simp [addWrap]

theorem toNat_subWrap (a b : Byte) : ((subWrap a b).toNat : Int) = ((a.toNat : Int) - b.toNat) % 256 := by
  have := a.isLt
  have := b.isLt
  simp [subWrap]
  omega

/-- V[r] is one of V0 to V[x]. -/
theorem mem_regsUpTo (x r : RegIdx) : r ∈ regsUpTo x ↔ r.val ≤ x.val := by
  simp only [regsUpTo, List.mem_filter, List.mem_finRange, true_and, decide_eq_true_eq]
  rfl

/-! ### Frames of the updates -/

theorem unchanged_refl (xs : List RegIdx) (ps : List Part) : Unchanged xs ps s s := by
  simp [Unchanged, SameRegsBut, SameMem, SameDisp]

theorem unchanged_setV (x : RegIdx) (b : Byte) (ps : List Part) : Unchanged [x] ps s (s.setV x b) := by
  simp +contextual [Unchanged, SameRegsBut, SameMem, SameDisp, getV_setV]

theorem unchanged_setResultAndFlag (x : RegIdx) (b f : Byte) (ps : List Part) :
    Unchanged [x, 15] ps s (s.setResultAndFlag x b f) := by
  simp +contextual [Unchanged, SameRegsBut, SameMem, SameDisp, getV_setResultAndFlag, vf]

theorem unchanged_setPc (a : Word) : Unchanged [] [.pc] s (s.setPc a) := by
  simp [Unchanged, SameRegsBut, SameMem, SameDisp]

theorem unchanged_setI (a : Word) : Unchanged [] [.i] s (s.setI a) := by
  simp [Unchanged, SameRegsBut, SameMem, SameDisp]

theorem unchanged_skipIf (c : Bool) : Unchanged [] [.pc] s (s.skipIf c) := by
  cases c
  · exact unchanged_refl s _ _
  · exact unchanged_setPc s _

theorem unchanged_storeRegs (n : Nat) : Unchanged [] [.mem] s (s.storeRegs n) := by
  simp [Unchanged, SameRegsBut, SameMem, SameDisp]

theorem unchanged_loadRegs (x : RegIdx) : Unchanged (regsUpTo x) [] s (s.loadRegs (x.val + 1)) := by
  refine ⟨fun r hr => ?_, by simp [SameMem, SameDisp]⟩
  rw [mem_regsUpTo] at hr
  rw [getV_loadRegs _ _ (by omega), if_neg (by omega)]

theorem unchanged_drawSprite (x y : RegIdx) (n : Nibble) :
    Unchanged [15] [.disp, .dirty] s (s.drawSprite x y n) := by
  refine ⟨fun r hr => ?_, by simp [SameMem, SameDisp]⟩
  rw [getV_drawSprite, if_neg (by simpa [vf] using hr)]

theorem unchanged_emitUnimplemented (w : Word) : Unchanged [] [.diag] s (s.emitUnimplemented w) := by
  simp [Unchanged, SameRegsBut, SameMem, SameDisp]

theorem unchanged_halt (c : Cause) : Unchanged [] [.status] s (s.halt c) := by
  simp [Unchanged, SameRegsBut, SameMem, SameDisp]

/-! ### Every meaning answers a next state (60_exceptions.md R208: nothing else stops the core) -/

theorem exec_answers_next (i : Instr) : ∃ t, exec i s = .next t := by
  cases i <;> simp only [exec]
  case ret =>
    cases h : s.stack with
    | nil => exact ⟨_, execRet_empty h⟩
    | cons a rest => exact ⟨_, execRet_pop a rest h⟩
  case call nnn =>
    by_cases h : s.cfg.stackDepth = some s.depth
    · exact ⟨_, execCall_full nnn h⟩
    · exact ⟨_, execCall_push nnn h⟩
  case drw x y n => unfold execDrw; split <;> exact ⟨_, rfl⟩
  case stRegs x => unfold execStRegs; split <;> exact ⟨_, rfl⟩
  case ldRegs x => unfold execLdRegs; split <;> exact ⟨_, rfl⟩
  all_goals exact ⟨_, rfl⟩

end Sys2Proof.Machine
end

