-- ==== Sys2Proof/Laws/PerInstr.lean ====
section
/-! SUPPORT. Per instruction: the encoder writes a word that the instruction's own row of the opcode table selects, and
that row reads the instruction back (spec/30_encoding.md R84). -/

namespace Sys2Proof.Laws.RowMatch

open Sys2Proof

/-- The rows of the opcode table, in its order. -/
def tableRows : List OpcodeRow := instructionRows ++ namedUnimplementedRows

/-- The place of an instruction's row in the table. -/
def rowNumber : Instr → Nat
  | .cls => 0
  | .ret => 1
  | .jp _ => 2
  | .call _ => 3
  | .seImm _ _ => 4
  | .sneImm _ _ => 5
  | .seReg _ _ => 6
  | .sneReg _ _ => 7
  | .ldImm _ _ => 8
  | .addImm _ _ => 9
  | .ldReg _ _ => 10
  | .orReg _ _ => 11
  | .andReg _ _ => 12
  | .xorReg _ _ => 13
  | .addReg _ _ => 14
  | .subReg _ _ => 15
  | .shr _ _ => 16
  | .subn _ _ => 17
  | .shl _ _ => 18
  | .ldI _ => 19
  | .jpV0 _ => 20
  | .rnd _ _ => 21
  | .drw _ _ _ => 22
  | .addI _ => 23
  | .stRegs _ => 24
  | .ldRegs _ => 25
  | .unimplEx9E _ => 26
  | .unimplExA1 _ => 27
  | .unimplFx07 _ => 28
  | .unimplFx0A _ => 29
  | .unimplFx15 _ => 30
  | .unimplFx18 _ => 31
  | .unimplFx29 _ => 32
  | .unimplFx33 _ => 33

/-- Row `rowNumber i` selects the word of `i`, and reads `i` from it. -/
def Statement (i : Instr) : Prop :=
  ∃ r, tableRows[rowNumber i]? = some r ∧ r.selects (encode i) ∧ r.build (encode i) = i

/-- Format A under mask 0xF000. -/
theorem selects_A (c : Nibble) (nnn : Addr12) : encA c nnn &&& 0xF000 = encA c 0 :=
  (mask_cat_iff _ _).2 (catOf_encA c nnn)

/-- Format XN under mask 0xF000. -/
theorem selects_XN (c : Nibble) (x : RegIdx) (nn : Byte) : encXN c x nn &&& 0xF000 = encA c 0 :=
  (mask_cat_iff _ _).2 (catOf_encXN c x nn)

/-- Format XYN under mask 0xF000. -/
theorem selects_XYN (c : Nibble) (x y : RegIdx) (n : Nibble) : encXY c x y n &&& 0xF000 = encA c 0 :=
  (mask_cat_iff _ _).2 (catOf_encXY c x y n)

/-- Format XY under mask 0xF00F. -/
theorem selects_XY (c : Nibble) (x y : RegIdx) (f : Nibble) : encXY c x y f &&& 0xF00F = encXY c 0 0 f :=
  (mask_cat_n_iff _ _ _).2 ⟨catOf_encXY c x y f, nOf_encXY c x y f⟩

/-- Format XF under mask 0xF0FF. -/
theorem selects_XF (c : Nibble) (x : RegIdx) (f : Byte) : encXN c x f &&& 0xF0FF = encXN c 0 f :=
  (mask_cat_nn_iff _ _ _).2 ⟨catOf_encXN c x f, nnOf_encXN c x f⟩

theorem cls : Statement .cls :=
  ⟨_, rfl, rfl, rfl⟩

theorem ret : Statement .ret :=
  ⟨_, rfl, rfl, rfl⟩

theorem jp (nnn : Addr12) : Statement (.jp nnn) :=
  ⟨_, rfl, (selects_A _ _).trans rfl, congrArg Instr.jp (nnnOf_encA _ _)⟩

theorem call (nnn : Addr12) : Statement (.call nnn) :=
  ⟨_, rfl, (selects_A _ _).trans rfl, congrArg Instr.call (nnnOf_encA _ _)⟩

theorem seImm (x : RegIdx) (nn : Byte) : Statement (.seImm x nn) :=
  ⟨_, rfl, (selects_XN _ _ _).trans rfl, congr (congrArg Instr.seImm (xOf_encXN _ _ _)) (nnOf_encXN _ _ _)⟩

theorem sneImm (x : RegIdx) (nn : Byte) : Statement (.sneImm x nn) :=
  ⟨_, rfl, (selects_XN _ _ _).trans rfl, congr (congrArg Instr.sneImm (xOf_encXN _ _ _)) (nnOf_encXN _ _ _)⟩

theorem seReg (x : RegIdx) (y : RegIdx) : Statement (.seReg x y) :=
  ⟨_, rfl, (selects_XY _ _ _ _).trans rfl, congr (congrArg Instr.seReg (xOf_encXY _ _ _ _)) (yOf_encXY _ _ _ _)⟩

theorem sneReg (x : RegIdx) (y : RegIdx) : Statement (.sneReg x y) :=
  ⟨_, rfl, (selects_XY _ _ _ _).trans rfl, congr (congrArg Instr.sneReg (xOf_encXY _ _ _ _)) (yOf_encXY _ _ _ _)⟩

theorem ldImm (x : RegIdx) (nn : Byte) : Statement (.ldImm x nn) :=
  ⟨_, rfl, (selects_XN _ _ _).trans rfl, congr (congrArg Instr.ldImm (xOf_encXN _ _ _)) (nnOf_encXN _ _ _)⟩

theorem addImm (x : RegIdx) (nn : Byte) : Statement (.addImm x nn) :=
  ⟨_, rfl, (selects_XN _ _ _).trans rfl, congr (congrArg Instr.addImm (xOf_encXN _ _ _)) (nnOf_encXN _ _ _)⟩

theorem ldReg (x : RegIdx) (y : RegIdx) : Statement (.ldReg x y) :=
  ⟨_, rfl, (selects_XY _ _ _ _).trans rfl, congr (congrArg Instr.ldReg (xOf_encXY _ _ _ _)) (yOf_encXY _ _ _ _)⟩

theorem orReg (x : RegIdx) (y : RegIdx) : Statement (.orReg x y) :=
  ⟨_, rfl, (selects_XY _ _ _ _).trans rfl, congr (congrArg Instr.orReg (xOf_encXY _ _ _ _)) (yOf_encXY _ _ _ _)⟩

theorem andReg (x : RegIdx) (y : RegIdx) : Statement (.andReg x y) :=
  ⟨_, rfl, (selects_XY _ _ _ _).trans rfl, congr (congrArg Instr.andReg (xOf_encXY _ _ _ _)) (yOf_encXY _ _ _ _)⟩

theorem xorReg (x : RegIdx) (y : RegIdx) : Statement (.xorReg x y) :=
  ⟨_, rfl, (selects_XY _ _ _ _).trans rfl, congr (congrArg Instr.xorReg (xOf_encXY _ _ _ _)) (yOf_encXY _ _ _ _)⟩

theorem addReg (x : RegIdx) (y : RegIdx) : Statement (.addReg x y) :=
  ⟨_, rfl, (selects_XY _ _ _ _).trans rfl, congr (congrArg Instr.addReg (xOf_encXY _ _ _ _)) (yOf_encXY _ _ _ _)⟩

theorem subReg (x : RegIdx) (y : RegIdx) : Statement (.subReg x y) :=
  ⟨_, rfl, (selects_XY _ _ _ _).trans rfl, congr (congrArg Instr.subReg (xOf_encXY _ _ _ _)) (yOf_encXY _ _ _ _)⟩

theorem shr (x : RegIdx) (y : RegIdx) : Statement (.shr x y) :=
  ⟨_, rfl, (selects_XY _ _ _ _).trans rfl, congr (congrArg Instr.shr (xOf_encXY _ _ _ _)) (yOf_encXY _ _ _ _)⟩

theorem subn (x : RegIdx) (y : RegIdx) : Statement (.subn x y) :=
  ⟨_, rfl, (selects_XY _ _ _ _).trans rfl, congr (congrArg Instr.subn (xOf_encXY _ _ _ _)) (yOf_encXY _ _ _ _)⟩

theorem shl (x : RegIdx) (y : RegIdx) : Statement (.shl x y) :=
  ⟨_, rfl, (selects_XY _ _ _ _).trans rfl, congr (congrArg Instr.shl (xOf_encXY _ _ _ _)) (yOf_encXY _ _ _ _)⟩

theorem ldI (nnn : Addr12) : Statement (.ldI nnn) :=
  ⟨_, rfl, (selects_A _ _).trans rfl, congrArg Instr.ldI (nnnOf_encA _ _)⟩

theorem jpV0 (nnn : Addr12) : Statement (.jpV0 nnn) :=
  ⟨_, rfl, (selects_A _ _).trans rfl, congrArg Instr.jpV0 (nnnOf_encA _ _)⟩

theorem rnd (x : RegIdx) (nn : Byte) : Statement (.rnd x nn) :=
  ⟨_, rfl, (selects_XN _ _ _).trans rfl, congr (congrArg Instr.rnd (xOf_encXN _ _ _)) (nnOf_encXN _ _ _)⟩

theorem drw (x : RegIdx) (y : RegIdx) (n : Nibble) : Statement (.drw x y n) :=
  ⟨_, rfl, (selects_XYN _ _ _ _).trans rfl, congr (congr (congrArg Instr.drw (xOf_encXY _ _ _ _)) (yOf_encXY _ _ _ _)) (nOf_encXY _ _ _ _)⟩

theorem addI (x : RegIdx) : Statement (.addI x) :=
  ⟨_, rfl, (selects_XF _ _ _).trans rfl, congrArg Instr.addI (xOf_encXN _ _ _)⟩

theorem stRegs (x : RegIdx) : Statement (.stRegs x) :=
  ⟨_, rfl, (selects_XF _ _ _).trans rfl, congrArg Instr.stRegs (xOf_encXN _ _ _)⟩

theorem ldRegs (x : RegIdx) : Statement (.ldRegs x) :=
  ⟨_, rfl, (selects_XF _ _ _).trans rfl, congrArg Instr.ldRegs (xOf_encXN _ _ _)⟩

theorem unimplEx9E (x : RegIdx) : Statement (.unimplEx9E x) :=
  ⟨_, rfl, (selects_XF _ _ _).trans rfl, congrArg Instr.unimplEx9E (xOf_encXN _ _ _)⟩

theorem unimplExA1 (x : RegIdx) : Statement (.unimplExA1 x) :=
  ⟨_, rfl, (selects_XF _ _ _).trans rfl, congrArg Instr.unimplExA1 (xOf_encXN _ _ _)⟩

theorem unimplFx07 (x : RegIdx) : Statement (.unimplFx07 x) :=
  ⟨_, rfl, (selects_XF _ _ _).trans rfl, congrArg Instr.unimplFx07 (xOf_encXN _ _ _)⟩

theorem unimplFx0A (x : RegIdx) : Statement (.unimplFx0A x) :=
  ⟨_, rfl, (selects_XF _ _ _).trans rfl, congrArg Instr.unimplFx0A (xOf_encXN _ _ _)⟩

theorem unimplFx15 (x : RegIdx) : Statement (.unimplFx15 x) :=
  ⟨_, rfl, (selects_XF _ _ _).trans rfl, congrArg Instr.unimplFx15 (xOf_encXN _ _ _)⟩

theorem unimplFx18 (x : RegIdx) : Statement (.unimplFx18 x) :=
  ⟨_, rfl, (selects_XF _ _ _).trans rfl, congrArg Instr.unimplFx18 (xOf_encXN _ _ _)⟩

theorem unimplFx29 (x : RegIdx) : Statement (.unimplFx29 x) :=
  ⟨_, rfl, (selects_XF _ _ _).trans rfl, congrArg Instr.unimplFx29 (xOf_encXN _ _ _)⟩

theorem unimplFx33 (x : RegIdx) : Statement (.unimplFx33 x) :=
  ⟨_, rfl, (selects_XF _ _ _).trans rfl, congrArg Instr.unimplFx33 (xOf_encXN _ _ _)⟩

end Sys2Proof.Laws.RowMatch
end

