-- ==== Sys2Proof/Laws/Run.lean ====
section
/-! SUPPORT. Runs: the step relation is a function of the number of steps, what the end of a run is in each status, and what
the host's moves do to the count of draws. -/

namespace Sys2Proof.Machine

open Sys2Proof

variable {s t u : State}

/-- The last of `k + 1` steps. -/
theorem stepsTo_succ {k : Nat} (h : StepsTo (k + 1) s u) : ∃ t, StepsTo k s t ∧ step t = .next u := by
  cases h with
  | tail _ _ t _ h hs => exact ⟨t, h, hs⟩

/-- No step leads to where it started. -/
theorem stepsTo_zero (h : StepsTo 0 s u) : u = s := by
  cases h
  rfl

/-- The first step may be taken first. -/
theorem stepsTo_head {k : Nat} (h : step s = .next t) (hk : StepsTo k t u) : StepsTo (k + 1) s u := by
  induction hk with
  | refl => exact .tail 0 _ _ _ (.refl _) h
  | tail k a b c _ hs ih => exact .tail _ _ _ _ (ih h) hs

/-- `k` steps lead to at most one state. -/
theorem stepsTo_functional {k : Nat} (ht : StepsTo k s t) (hu : StepsTo k s u) : t = u := by
  induction k generalizing t u with
  | zero => rw [stepsTo_zero ht, stepsTo_zero hu]
  | succ k ih =>
    obtain ⟨t', ht', ht⟩ := stepsTo_succ ht
    obtain ⟨u', hu', hu⟩ := stepsTo_succ hu
    rw [ih ht' hu', hu] at ht
    injection ht with ht
    exact ht.symm

/-- A run reaches at most one state after `k` steps. -/
theorem reaches_functional {r : RunStart} {k : Nat} (ht : r.reaches k t) (hu : r.reaches k u) : t = u := by
  obtain ⟨s0, h0, ht⟩ := ht
  obtain ⟨s1, h1, hu⟩ := hu
  rw [h0] at h1
  injection h1 with h1
  subst h1
  exact stepsTo_functional ht hu

/-- A run that reaches a state reaches the next one. -/
theorem reaches_succ {r : RunStart} {k : Nat} (hs : r.reaches k s) (h : step s = .next t) : r.reaches (k + 1) t := by
  obtain ⟨s0, h0, hs⟩ := hs
  exact ⟨s0, h0, .tail _ _ _ _ hs h⟩

/-- The state a run reaches after `k + 1` steps is a step from the one after `k`. -/
theorem reaches_pred {r : RunStart} {k : Nat} (ht : r.reaches (k + 1) t) :
    ∃ s, r.reaches k s ∧ step s = .next t := by
  obtain ⟨s0, h0, ht⟩ := ht
  obtain ⟨s, hs, h⟩ := stepsTo_succ ht
  exact ⟨s, ⟨s0, h0, hs⟩, h⟩

@[simp] theorem runEnd_halted (c : Cause) (h : s.status = .halted c) : s.runEnd = some (.fatal c) := by
  simp [State.runEnd, h]

theorem runEnd_running (h : s.status = .running) :
    s.runEnd = if s.atSelfJump then some .selfJump else none := by
  simp [State.runEnd, h]

/-- A jump to itself: the fetch succeeds and its word decodes to a JP to PC. -/
theorem atSelfJump_decode (h : s.atSelfJump = true) :
    s.pc.toNat < 0xFFF ∧ ∃ nnn,
      decode (wordOfBytes (s.mem.read s.pc.toNat) (s.mem.read (s.pc.toNat + 1))) = .instr (.jp nnn) ∧
      zextAddr nnn = s.pc := by
  unfold State.atSelfJump at h
  by_cases hp : 0xFFF ≤ s.pc.toNat
  · rw [fetch_out hp] at h
    cases h
  · rw [fetch_in (by omega)] at h
    refine ⟨by omega, ?_⟩
    dsimp only at h
    split at h
    · rename_i nnn hd
      exact ⟨nnn, hd, of_decide_eq_true h⟩
    · cases h

/-- The outputs do not matter to it. -/
@[simp] theorem atSelfJump_clearOutputs (s : State) : s.clearOutputs.atSelfJump = s.atSelfJump := by
  unfold State.atSelfJump
  by_cases hp : 0xFFF ≤ s.pc.toNat
  · rw [fetch_out (s := s) hp, fetch_out (s := s.clearOutputs) hp]
  · rw [fetch_in (s := s) (by omega), fetch_in (s := s.clearOutputs) (by simpa using hp)]
    rfl

@[simp] theorem hostReset_v (s : State) : s.hostReset.v = (State.resetWith s.cfg).v := rfl
@[simp] theorem hostReset_i (s : State) : s.hostReset.i = 0 := rfl
@[simp] theorem hostReset_pc (s : State) : s.hostReset.pc = 0x200 := rfl
@[simp] theorem hostReset_stack (s : State) : s.hostReset.stack = [] := rfl
@[simp] theorem hostReset_mem (s : State) : s.hostReset.mem = [] := rfl
@[simp] theorem hostReset_disp (s : State) : s.hostReset.disp = Display.blank := rfl
@[simp] theorem hostReset_status (s : State) : s.hostReset.status = .running := rfl
@[simp] theorem hostReset_out (s : State) : s.hostReset.out = StepOutput.none := rfl
@[simp] theorem hostReset_draws (s : State) : s.hostReset.draws = s.draws := rfl
@[simp] theorem hostReset_cfg (s : State) : s.hostReset.cfg = s.cfg := rfl

end Sys2Proof.Machine
end

