-- ==== Sys2Proof/Tests/Slice0.lean ====
section
/-! SUPPORT. Tests: ill-formed terms refused, words written out from the encodings decoded, one step per instruction with
the expected values of spec/95_test_vectors.md (the vector is named at each test), and for every statement with
hypotheses a concrete state that meets them. -/

namespace Sys2Proof.Tests

open Sys2Proof Sys2Proof.Machine

/-! ### Helpers -/

/-- One step of the given word, placed at the PC of `s`. -/
def runWord (w : Nat) (s : State) : Host.Outcome State Fault Refusal := step (s.withFetchWord 16 w)

/-- A part of the next state. -/
def peek {α : Type} (f : State → α) : Host.Outcome State Fault Refusal → Option α
  | .next s => some (f s)
  | .fault _ => none
  | .refused _ => none

/-- Reset with bytes placed from an address on. -/
def withBytes (base : Nat) (bs : List Byte) : State := { State.reset with mem := Memory.writeBlock [] base bs }

/-- Reset with V0 and V1 given. -/
def regs01 (v0 v1 : Byte) : State := (State.reset.setV 0 v0).setV 1 v1

/-- Pixels on. -/
def lit (ps : List (Fin 64 × Fin 32)) (s : State) : State :=
  { s with disp := ps.foldl (fun d p => d.setPixel p.1 p.2 true) s.disp }

/-- Reset with `n` stack entries 202, for a given STACK_DEPTH. -/
def deep (cfg : Config) (n : Nat) : State := { State.resetWith cfg with stack := List.replicate n 0x202 }

/-- A sprite of one row, 0x80, at I = 300. -/
def dot : State := (withBytes 0x300 [0x80]).setI 0x300

/-! ### Well-formedness: each check refuses an ill-formed term -/

theorem test_regOk_refuses : regOk 16 = false := by decide
theorem test_immOk_refuses : immOk 256 = false := by decide
theorem test_addrOk_refuses : addrOk 4096 = false := by decide
theorem test_rowsOk_refuses : rowsOk 16 = false := by decide
theorem test_imageOk_refuses : imageOk (List.replicate 3585 0) = false := by
  simp only [imageOk, List.length_replicate]; decide
theorem test_imageOk_takes_3584 : imageOk (List.replicate 3584 0) = true := by
  simp only [imageOk, List.length_replicate]; decide
theorem test_config_refuses : Config.wf { stackDepth := some 0 } = false := by decide
theorem test_raw_refuses_address : (RawOperands.a 4096).wf = false := by decide
theorem test_raw_refuses_immediate : (RawOperands.xn 3 256).wf = false := by decide
theorem test_raw_refuses_register : (RawOperands.xy 0 16).wf = false := by decide
theorem test_raw_refuses_rows : (RawOperands.xyn 1 2 16).wf = false := by decide
theorem test_raw_refuses_index : (RawOperands.xf 16).wf = false := by decide
theorem test_wf_takes : (Instr.drw 15 15 15).wf = true := by decide
/-- A memory with a listed zero, or out of order, is not canonical. -/
theorem test_memory_refuses : Memory.wf [(5, 0)] = false ∧ Memory.wf [(5, 1), (4, 1)] = false ∧
    Memory.wf [(4096, 1)] = false := by decide

/-! ### Decoding: words written out from the patterns of 30_encoding.md R84 and 45_unimplemented.md R182 -/

theorem test_decode_cls : decode 0b0000000011100000 = .instr .cls := by decide
theorem test_decode_ret : decode 0b0000000011101110 = .instr .ret := by decide
theorem test_decode_jp : decode 0b0001001000110100 = .instr (.jp 0x234) := by decide
theorem test_decode_call : decode 0b0010001000001110 = .instr (.call 0x20E) := by decide
theorem test_decode_seImm : decode 0b0011101011111110 = .instr (.seImm 10 0xFE) := by decide
theorem test_decode_sneImm : decode 0b0100001100010001 = .instr (.sneImm 3 0x11) := by decide
theorem test_decode_seReg : decode 0b0101000100100000 = .instr (.seReg 1 2) := by decide
theorem test_decode_sneReg : decode 0b1001000100100000 = .instr (.sneReg 1 2) := by decide
theorem test_decode_ldImm : decode 0b0110000000000101 = .instr (.ldImm 0 0x05) := by decide
theorem test_decode_addImm : decode 0b0111111100000010 = .instr (.addImm 15 0x02) := by decide
theorem test_decode_ldReg : decode 0b1000111100010000 = .instr (.ldReg 15 1) := by decide
theorem test_decode_orReg : decode 0b1000000000010001 = .instr (.orReg 0 1) := by decide
theorem test_decode_andReg : decode 0b1000000000010010 = .instr (.andReg 0 1) := by decide
theorem test_decode_xorReg : decode 0b1000000000010011 = .instr (.xorReg 0 1) := by decide
theorem test_decode_addReg : decode 0b1000000000010100 = .instr (.addReg 0 1) := by decide
theorem test_decode_subReg : decode 0b1000000000010101 = .instr (.subReg 0 1) := by decide
theorem test_decode_shr : decode 0b1000000000010110 = .instr (.shr 0 1) := by decide
theorem test_decode_subn : decode 0b1000000000010111 = .instr (.subn 0 1) := by decide
theorem test_decode_shl : decode 0b1000000000011110 = .instr (.shl 0 1) := by decide
theorem test_decode_ldI : decode 0b1010001100000000 = .instr (.ldI 0x300) := by decide
theorem test_decode_jpV0 : decode 0b1011111111111110 = .instr (.jpV0 0xFFE) := by decide
theorem test_decode_rnd : decode 0b1100111111110000 = .instr (.rnd 15 0xF0) := by decide
theorem test_decode_drw : decode 0b1101000111110011 = .instr (.drw 1 15 3) := by decide
theorem test_decode_addI : decode 0b1111001000011110 = .instr (.addI 2) := by decide
theorem test_decode_stRegs : decode 0b1111000101010101 = .instr (.stRegs 1) := by decide
theorem test_decode_ldRegs : decode 0b1111111101100101 = .instr (.ldRegs 15) := by decide
theorem test_decode_keypad : decode 0b1110000110011110 = .instr (.unimplEx9E 1) ∧
    decode 0b1110000110100001 = .instr (.unimplExA1 1) ∧ decode 0b1111000000001010 = .instr (.unimplFx0A 0) := by decide
theorem test_decode_timers : decode 0b1111000100000111 = .instr (.unimplFx07 1) ∧
    decode 0b1111000100010101 = .instr (.unimplFx15 1) ∧ decode 0b1111000100011000 = .instr (.unimplFx18 1) := by decide
theorem test_decode_font : decode 0b1111000100101001 = .instr (.unimplFx29 1) ∧
    decode 0b1111000100110011 = .instr (.unimplFx33 1) := by decide
/-- T2.19, T2.23, T5.2, T5.4, T5.5, T5.8: no row. -/
theorem test_decode_rejects : decode 0x5121 = .unimplemented 0x5121 ∧ decode 0x912F = .unimplemented 0x912F ∧
    decode 0x0000 = .unimplemented 0x0000 ∧ decode 0x8018 = .unimplemented 0x8018 ∧
    decode 0x0123 = .unimplemented 0x0123 ∧ decode 0x00E1 = .unimplemented 0x00E1 ∧
    decode 0x00EF = .unimplemented 0x00EF ∧ decode 0x00FE = .unimplemented 0x00FE := by decide
/-- S9: the byte at the lower address is the high one; a lone byte is no instruction. -/
theorem test_decode_bytes : decodeBytes [0x12, 0x34, 0x99] = .word (.instr (.jp 0x234)) [0x99] ∧
    decodeBytes [0x12] = .truncated := by decide
theorem test_encode_words : encode (.jp 0x234) = 0x1234 ∧ encode (.drw 1 15 3) = 0xD1F3 ∧
    encode (.rnd 15 0xF0) = 0xCFF0 ∧ encode (.stRegs 1) = 0xF155 := by decide
theorem test_table_word : decodeTableWord 16 0x1234 = some (.jp 0x234) ∧ decodeTableWord 16 0x5121 = none := by decide

/-! ### The fetch and the step -/

/-- T1.1 -/
theorem test_step_last_word : peek State.pc (step (State.reset.setPc 0xFFE)) = some 0x1000 := by decide
/-- T1.2 -/
theorem test_step_fetch_out :
    peek State.status (step (State.reset.setPc 0xFFF)) = some (.halted (.outOfBounds .fetch 0xFFF)) := by decide
/-- T1.5 -/
theorem test_step_odd_pc : peek (fun t => (t.getV 0, t.pc)) (step ((withBytes 0x201 [0x60, 0x07]).setPc 0x201)) =
    some (0x07, 0x203) := by decide
/-- T1.6 -/
theorem test_step_byte_order : peek State.pc (step (withBytes 0x200 [0x12, 0x34])) = some 0x234 := by decide
/-- R36: no step in Halted. -/
theorem test_step_halted : peek State.pc (step (State.reset.halt .stackUnderflow)) = none := by decide

/-! ### Control flow -/

/-- T2.3 -/
theorem test_ret : peek (fun t => (t.pc, t.stack)) (runWord 0x00EE { State.reset with stack := [0x1000, 0x204] }) =
    some (0x1000, [0x204]) := by decide
/-- T2.2, S8 -/
theorem test_ret_empty : peek (fun t => (t.status, t.pc)) (runWord 0x00EE State.reset) =
    some (.halted .stackUnderflow, 0x202) := by decide
/-- T2.6 -/
theorem test_jp : peek State.pc (runWord 0x1FFF State.reset) = some 0xFFF := by decide
/-- T2.8 -/
theorem test_call : peek (fun t => (t.pc, t.stack)) (runWord 0x2300 (State.reset.setPc 0xFFE)) =
    some (0x300, [0x1000]) := by decide
/-- T2.9, T2.10 -/
theorem test_call_bound :
    peek (fun t => (t.status, t.pc, t.depth)) (runWord 0x2300 (deep { stackDepth := some 16 } 16)) =
      some (.halted .stackOverflow, 0x202, 16) ∧
    peek (fun t => (t.pc, t.depth)) (runWord 0x2300 (deep { stackDepth := none } 16)) = some (0x300, 17) := by decide
/-- T2.13 -/
theorem test_seImm : peek State.pc (runWord 0x3AFF ((State.reset.setV 10 0xFF).setPc 0xFFE)) = some 0x1002 := by decide
/-- T2.12 -/
theorem test_seImm_not : peek State.pc (runWord 0x3000 ((State.reset.setV 0 1).setPc 0x208)) = some 0x20A := by decide
/-- T2.14 -/
theorem test_sneImm : peek State.pc (runWord 0x4311 ((State.reset.setV 3 0x10).setPc 0x300)) = some 0x304 := by decide
/-- T2.15 -/
theorem test_sneImm_not : peek State.pc (runWord 0x4310 ((State.reset.setV 3 0x10).setPc 0x300)) = some 0x302 := by
  decide
/-- T2.16 -/
theorem test_seReg : peek State.pc (runWord 0x5120 (((State.reset.setV 1 7).setV 2 7).setPc 0x210)) = some 0x214 := by
  decide
/-- T2.17 -/
theorem test_seReg_not : peek State.pc (runWord 0x5120 (((State.reset.setV 1 7).setV 2 8).setPc 0x210)) =
    some 0x212 := by decide
/-- T2.20 -/
theorem test_sneReg : peek State.pc (runWord 0x9120 (((State.reset.setV 1 7).setV 2 8).setPc 0x210)) = some 0x214 := by
  decide
/-- T2.22 -/
theorem test_sneReg_not : peek State.pc (runWord 0x9330 (State.reset.setV 3 0x99)) = some 0x202 := by decide
/-- T2.24 -/
theorem test_jpV0 : peek State.pc (runWord 0xB300 (State.reset.setV 0 0x10)) = some 0x310 := by decide
/-- T2.26 -/
theorem test_jpV0_mask : peek State.pc (runWord 0xBFFF (State.reset.setV 0 0xFF)) = some 0x0FE := by decide

/-! ### Registers and arithmetic -/

/-- V0 and VF after a word on V0, V1. -/
def v0f (w : Nat) (v0 v1 : Byte) : Option (Byte × Byte) :=
  peek (fun t => (t.getV 0, t.getV 15)) (runWord w (regs01 v0 v1))

/-- VF after a word on VF, V1. -/
def vfAfter (w : Nat) (vF v1 : Byte) : Option Byte :=
  peek (fun t => t.getV 15) (runWord w ((State.reset.setV 15 vF).setV 1 v1))

/-- V0 and VF after a word on V0, VF. -/
def v0fOf (w : Nat) (v0 vF : Byte) : Option (Byte × Byte) :=
  peek (fun t => (t.getV 0, t.getV 15)) (runWord w ((State.reset.setV 0 v0).setV 15 vF))

/-- T3.1, T3.2 -/
theorem test_ldImm : v0f 0x6005 0 0 = some (0x05, 0) ∧ vfAfter 0x6FAB 0 0 = some 0xAB := by decide
/-- T3.3, T3.5 -/
theorem test_addImm : v0f 0x70FF 0x05 0 = some (0x04, 0) ∧ vfAfter 0x7F02 0xFF 0 = some 0x01 := by decide
/-- T3.7, T3.9 -/
theorem test_ldReg : v0f 0x8010 0 0x2A = some (0x2A, 0) ∧ v0fOf 0x80F0 0 0x80 = some (0x80, 0x80) := by decide
/-- T3.10, T3.11 -/
theorem test_or : v0f 0x8011 0xF0 0x0F = some (0xFF, 0) ∧ vfAfter 0x8F11 0x01 0x10 = some 0x11 := by decide
/-- T3.12 -/
theorem test_and : v0f 0x8012 0xF0 0x3C = some (0x30, 0) := by decide
/-- T3.13, T3.14 -/
theorem test_xor : v0f 0x8013 0xAA 0x55 = some (0xFF, 0) ∧ v0f 0x8003 0xAA 0 = some (0, 0) := by decide
/-- T3.22, T3.23 -/
theorem test_addReg : v0f 0x8014 0xFF 0xFF = some (0xFE, 1) ∧ v0f 0x8014 0x80 0x7F = some (0xFF, 0) := by decide
/-- T3.25, T3.27, T3.29 -/
theorem test_addReg_flag : vfAfter 0x8F14 0xF0 0x20 = some 1 ∧ v0fOf 0x80F4 0x10 0x05 = some (0x15, 0) ∧
    vfAfter 0x8FF4 0x81 0 = some 1 := by decide
/-- T3.41, T3.42, T3.44 -/
theorem test_sub : v0f 0x8015 0x03 0x05 = some (0xFE, 0) ∧ v0f 0x8015 0x07 0x07 = some (0, 0) ∧
    v0f 0x8015 0xFF 0 = some (0xFF, 1) := by decide
/-- T3.45, T3.47 -/
theorem test_sub_flag : vfAfter 0x8F15 0x09 0x04 = some 1 ∧ v0fOf 0x80F5 0x09 0x04 = some (0x05, 1) := by decide
/-- T3.60, T3.61 -/
theorem test_shr : v0f 0x8016 0xFF 0x05 = some (0x02, 1) ∧ v0f 0x8016 0xFF 0x80 = some (0x40, 0) := by decide
/-- T3.65, T3.66 -/
theorem test_shr_flag : vfAfter 0x8F16 0 0x07 = some 1 ∧ v0fOf 0x80F6 0 0x07 = some (0x03, 1) := by decide
/-- T3.50, T3.51, T3.52 -/
theorem test_subn : v0f 0x8017 0x03 0x05 = some (0x02, 1) ∧ v0f 0x8017 0x05 0x03 = some (0xFE, 0) ∧
    v0f 0x8017 0x07 0x07 = some (0, 0) := by decide
/-- T3.53, T3.54 -/
theorem test_subn_flag : vfAfter 0x8F17 0x04 0x09 = some 1 ∧ v0fOf 0x80F7 0x04 0x09 = some (0x05, 1) := by decide
/-- T3.70, T3.71 -/
theorem test_shl : v0f 0x801E 0xFF 0x81 = some (0x02, 0x80) ∧ v0f 0x801E 0xFF 0x41 = some (0x82, 0) := by decide
/-- T3.74, T3.76 -/
theorem test_shl_flag : vfAfter 0x8F1E 0 0x40 = some 0 ∧ vfAfter 0x8FFE 0x80 0 = some 0x80 := by decide
/-- T3.80, T3.83, with the random byte given. -/
theorem test_rnd : (rndWith 0xA7 0 0x0F State.reset).getV 0 = 0x07 ∧ (rndWith 0x5A 15 0xF0 State.reset).getV 15 = 0x50 := by
  decide
/-- A step of RND uses up one draw (40_step_cycle.md R106; notes/assumptions/3.md). -/
theorem test_rnd_draws : peek (fun t => (t.pc, t.draws)) (runWord 0xC00F State.reset) = some (0x202, 1) := by decide

/-! ### Index and memory -/

/-- T4.2 -/
theorem test_ldI : peek State.i (runWord 0xAFFF State.reset) = some 0xFFF := by decide
/-- T4.3, T4.4 -/
theorem test_addI : peek State.i (runWord 0xF21E ((State.reset.setI 0x300).setV 2 0x10)) = some 0x310 ∧
    peek (fun t => (t.i, t.getV 15)) (runWord 0xF01E ((State.reset.setI 0xFFE).setV 0 5)) = some (0x003, 0) := by decide
/-- T4.8 -/
theorem test_stRegs : peek (fun t => (t.mem.readBlock 0x300 3, t.i)) (runWord 0xF155
    (((regs01 0xFF 0x54).setV 2 0x77).setI 0x300)) = some ([0xFF, 0x54, 0x00], 0x300) := by decide
/-- T4.10 -/
theorem test_stRegs_out : peek (fun t => (t.status, t.pc, t.mem.read 0xFFF)) (runWord 0xF155
    ((regs01 0xAB 0xCD).setI 0xFFF)) = some (.halted (.outOfBounds .data 0x1000), 0x202, 0x00) := by decide
/-- T4.13 -/
theorem test_ldRegs : peek (fun t => (t.getV 0, t.getV 1, t.getV 2, t.i)) (runWord 0xF165
    ((withBytes 0x300 [0xFF, 0x54, 0x99]).setI 0x300)) = some (0xFF, 0x54, 0x00, 0x300) := by decide
/-- T4.15 -/
theorem test_ldRegs_out : peek (fun t => (t.status, t.getV 0, t.getV 1)) (runWord 0xF165
    ((((withBytes 0xFFF [0x5A]).setV 0 1).setV 1 2).setI 0xFFF)) =
      some (.halted (.outOfBounds .data 0x1000), 0x01, 0x02) := by decide

/-! ### Unimplemented words -/

/-- PC and the event. -/
def event (w : Nat) (s : State) : Option (Word × Option Diag) := peek (fun t => (t.pc, t.out.diag)) (runWord w s)

/-- T5.1, T5.3, T5.7: the keypad group. -/
theorem test_unimpl_keypad : event 0xF00A State.reset = some (0x202, some ⟨0xF00A, 0x202⟩) ∧
    event 0xE19E (State.reset.setV 1 3) = some (0x202, some ⟨0xE19E, 0x202⟩) ∧
    event 0xE1A1 State.reset = some (0x202, some ⟨0xE1A1, 0x202⟩) := by decide
/-- T5.7: the timer group. -/
theorem test_unimpl_timers : event 0xF107 State.reset = some (0x202, some ⟨0xF107, 0x202⟩) ∧
    event 0xF115 State.reset = some (0x202, some ⟨0xF115, 0x202⟩) ∧
    event 0xF118 State.reset = some (0x202, some ⟨0xF118, 0x202⟩) := by decide
/-- T5.6, T5.7: the BCD/font group. -/
theorem test_unimpl_font : event 0xF129 State.reset = some (0x202, some ⟨0xF129, 0x202⟩) ∧
    event 0xF133 ((State.reset.setV 1 0xFF).setI 0x300) = some (0x202, some ⟨0xF133, 0x202⟩) := by decide
/-- T5.2, T5.4, T2.19: words of no row. -/
theorem test_unimpl_other : event 0x0000 State.reset = some (0x202, some ⟨0x0000, 0x202⟩) ∧
    event 0x8018 (regs01 1 2) = some (0x202, some ⟨0x8018, 0x202⟩) ∧
    event 0x5121 (((State.reset.setV 1 7).setV 2 7).setPc 0x210) = some (0x212, some ⟨0x5121, 0x212⟩) := by decide

/-! ### Display -/

/-- T6.1 -/
theorem test_cls : peek (fun t => (t.disp.pixel 0 0, t.disp.pixel 63 31, t.out.dirty))
    (runWord 0x00E0 (lit [(0, 0), (63, 31)] State.reset)) = some (false, false, true) := by decide
/-- T6.4: wraps at the right edge, not flagged. -/
theorem test_drw_wrap : peek (fun t => (t.disp.pixel 60 5, t.disp.pixel 3 5, t.disp.pixel 61 5, t.getV 15, t.out.dirty))
    (runWord 0xD011 ((((withBytes 0x300 [0x81]).setV 0 0x3C).setV 1 5).setI 0x300)) =
      some (true, true, false, 0, true) := by decide
/-- T6.6: collision. -/
theorem test_drw_collision : peek (fun t => ((List.finRange 5).map fun k => t.disp.pixel (Fin.ofNat 64 k) 0, t.getV 15))
    (runWord 0xD011 (lit [(0, 0), (1, 0)] ((withBytes 0x300 [0xF0]).setI 0x300))) =
      some ([false, false, true, true, false], 1) := by decide
/-- T6.10: no rows. -/
theorem test_drw_no_rows : peek (fun t => (t.status, t.disp.pixel 5 5, t.getV 15, t.out.dirty))
    (runWord 0xD010 (lit [(5, 5)] (((regs01 1 1).setV 15 1).setI 0xFFF))) = some (.running, true, 0, true) := by decide
/-- T6.12: past the end of memory. -/
theorem test_drw_out : peek (fun t => (t.status, t.disp.pixel 3 3, t.out.dirty))
    (runWord 0xD012 (lit [(3, 3)] ((withBytes 0xFFF [0x80]).setI 0xFFF))) =
      some (.halted (.outOfBounds .data 0x1000), true, false) := by decide
/-- T6.13: VF is read as the column first, then overwritten. -/
theorem test_drw_flag_operand : peek (fun t => (t.disp.pixel 3 4, t.getV 15))
    (runWord 0xDF11 ((dot.setV 15 3).setV 1 4)) = some (true, 0) := by decide

/-! ### Loader -/

/-- T7.1, T7.5 -/
theorem test_load : State.reset.load [0x60, 0x05] = .ok (withBytes 0x200 [0x60, 0x05]) ∧
    (withBytes 0x200 [0xA5]).wordAtPc = 0xA500 := by decide
/-- T7.4 -/
theorem test_load_too_long : State.reset.load (List.replicate 3585 0) = .outOfSpace := by
  simp only [State.load, test_imageOk_refuses]; rfl
/-- The codes of 60_exceptions.md R201. -/
theorem test_codes : (Cause.outOfBounds .fetch 0xFFF).code = 1 ∧ (Cause.outOfBounds .data 0x1000).code = 2 ∧
    Cause.stackUnderflow.code = 3 ∧ Cause.stackOverflow.code = 4 ∧ unimplementedCode = 5 ∧ outOfSpaceCode = 6 := by
  decide

/-! ### Witnesses: the hypotheses of the statements can be met -/

/-- A nontrivial state of the invariant: a stored word at the last address, a stack at its bound, I and PC at the top. -/
def topState : State :=
  { State.resetWith { stackDepth := some 2 } with
    mem := [(0xFFE, 0x1F), (0xFFF, 0xFE)], pc := 0xFFE, i := 0xFFF, stack := [0x1000, 0x002] }

theorem topState_inv : topState.Inv := by
  refine ⟨by decide, by decide, by decide, ?_, ?_, ?_⟩
  · intro a ha
    simp only [topState, List.mem_cons, List.not_mem_nil, or_false] at ha
    rcases ha with rfl | rfl <;> decide
  · intro d h
    have hd : topState.cfg.stackDepth = some 2 := rfl
    rw [hd] at h
    injection h with h
    subst h
    decide
  · intro c h
    have hs : topState.status = .running := rfl
    rw [hs] at h
    cases h

/-- `Selected`: the pattern of each row is a word that the row selects (all statements that begin with `Selected`, and
DecoderAgreesWithOpcodeTable, NamedUnimplementedRowsOnlyReport). -/
theorem witness_Selected : ∀ r ∈ Laws.RowMatch.tableRows, r.pattern &&& r.mask = r.pattern := by decide

theorem witness_EncodeOfDecodeIsTheWord :
    decode 0xDFF3 = .instr (.drw 15 15 3) ∧ decode 0xFFFF = .unimplemented 0xFFFF := by decide

/-- A word that no instruction row selects, of a named row and of none. -/
theorem witness_DecoderAgreesWithOpcodeTable :
    (∀ r ∈ instructionRows, (0xE09E : Word) &&& r.mask ≠ r.pattern) ∧
    (∀ r ∈ instructionRows, (0x5121 : Word) &&& r.mask ≠ r.pattern) := by decide

/-- One word of each class. -/
theorem witness_WordsOutsideTheTableAreRejected :
    ((0x0000 : Word).toNat / 0x1000 = 0 ∧ (0x0000 : Word) ≠ 0x00E0 ∧ (0x0000 : Word) ≠ 0x00EE) ∧
    ((0x5FFF : Word).toNat / 0x1000 = 5 ∧ (0x5FFF : Word).toNat % 0x10 ≠ 0) ∧
    ((0x9001 : Word).toNat / 0x1000 = 9 ∧ (0x9001 : Word).toNat % 0x10 ≠ 0) ∧
    ((0x800D : Word).toNat / 0x1000 = 8 ∧ 8 ≤ (0x800D : Word).toNat % 0x10 ∧ (0x800D : Word).toNat % 0x10 ≤ 0xD) ∧
    ((0x800F : Word).toNat / 0x1000 = 8 ∧ (0x800F : Word).toNat % 0x10 = 0xF) ∧
    ((0xE09F : Word).toNat / 0x1000 = 0xE ∧ (0xE09F : Word).toNat % 0x100 ≠ 0x9E ∧
      (0xE09F : Word).toNat % 0x100 ≠ 0xA1) ∧
    ((0xF056 : Word).toNat / 0x1000 = 0xF ∧
      (0xF056 : Word).toNat % 0x100 ∉ [0x1E, 0x55, 0x65, 0x07, 0x0A, 0x15, 0x18, 0x29, 0x33]) := by decide

/-- At the last fetch address. -/
theorem witness_StepExecutesTheDecodedInstruction :
    topState.status = .running ∧ topState.pc.toNat ≤ 0xFFE ∧
    decodeBytes [topState.mem.read topState.pc.toNat, topState.mem.read (topState.pc.toNat + 1)] =
      .word (.instr (.jp 0xFFE)) [] := by decide

/-- T1.1. -/
theorem witness_StepPassesOverUnimplementedWords :
    (State.reset.setPc 0xFFE).status = .running ∧ (State.reset.setPc 0xFFE).pc.toNat ≤ 0xFFE ∧
    (∀ r ∈ instructionRows, BitVec.ofNat 16 (State.reset.setPc 0xFFE).wordAtPc &&& r.mask ≠ r.pattern) := by decide

/-- T1.2, T1.4. -/
theorem witness_FetchOutOfBoundsHaltsTheCore :
    ((State.reset.setPc 0xFFF).status = .running ∧ 0xFFF ≤ (State.reset.setPc 0xFFF).pc.toNat) ∧
    ((State.reset.setPc 0x1002).status = .running ∧ 0xFFF ≤ (State.reset.setPc 0x1002).pc.toNat) := by decide

theorem witness_FetchReadsTheBigEndianWord :
    topState.pc.toNat ≤ 0xFFE ∧ 0xFFF ≤ (topState.setPc 0xFFF).pc.toNat := by decide

theorem witness_StepIsPossibleExactlyWhenRunning :
    (State.reset.halt .stackUnderflow).status = .halted .stackUnderflow ∧ State.reset.status = .running := by decide

theorem witness_RetPopsTheReturnAddress :
    topState.status = .running ∧ topState.stack = 0x1000 :: [0x002] ∧ State.reset.stack = [] := by decide

/-- A skip fetched at 0xFFE; the words of no row are those of witness_WordsOutsideTheTableAreRejected. -/
theorem witness_SkipsAddTwoUnderTheirCondition :
    (topState.setPc 0x1000).status = .running ∧ (topState.setPc 0x1000).pc = 0x1000 ∧
    (topState.setPc 0x1000).getV 3 = 0x00 ∧ (topState.setPc 0x1000).getV 3 ≠ 0x01 ∧
    (topState.setPc 0x1000).getV 3 = (topState.setPc 0x1000).getV 4 ∧
    ((topState.setPc 0x1000).setV 3 0x01).getV 3 ≠ ((topState.setPc 0x1000).setV 3 0x01).getV 4 := by decide

/-- A jump to itself at the last fetch address; also JumpToItselfRunsSafelyForEver. -/
theorem witness_JpSetsPcToTheTarget :
    topState.status = .running ∧ topState.pc.toNat ≤ 0xFFE ∧ topState.wordAtPc = 0x1000 + topState.pc.toNat := by decide

/-- A CALL to itself at the last fetch address, with two entries, for a given bound. -/
def selfCall (d : Nat) : State :=
  { topState with mem := [(0xFFE, 0x2F), (0xFFF, 0xFE)], cfg := { stackDepth := some d } }

/-- With no room and with room for one more. -/
theorem witness_CallToItself :
    (selfCall 2).status = .running ∧ (selfCall 2).pc.toNat ≤ 0xFFE ∧
    (selfCall 2).wordAtPc = 0x2000 + (selfCall 2).pc.toNat ∧
    (selfCall 2).cfg.stackDepth = some ((selfCall 2).stack.length + 0) ∧
    (selfCall 3).cfg.stackDepth = some ((selfCall 3).stack.length + 1) := by decide

/-- One entry below the bound, and at the bound; also CallThenRetReturnsAfterTheCall. -/
theorem witness_CallPushesThePostFetchPc :
    (deep { stackDepth := some 16 } 15).cfg.stackDepth ≠ some (deep { stackDepth := some 16 } 15).stack.length ∧
    (deep { stackDepth := none } 16).cfg.stackDepth ≠ some (deep { stackDepth := none } 16).stack.length ∧
    (deep { stackDepth := some 16 } 16).cfg.stackDepth = some (deep { stackDepth := some 16 } 16).stack.length := by
  decide

theorem witness_CallThenRetReturnsAfterTheCall :
    (deep { stackDepth := some 16 } 15).cfg.stackDepth ≠ some (deep { stackDepth := some 16 } 15).stack.length ∧
    ((deep { stackDepth := some 16 } 15).push 0x204).stack = 0x204 :: (deep { stackDepth := some 16 } 15).stack := by
  decide

theorem witness_RndMasksTheDrawnByte : (0x0F : Byte).getLsbD 7 = false := by decide

theorem witness_OnlyRndDependsOnTheRandomInput :
    (∀ x nn, Instr.addReg 0 1 ≠ .rnd x nn) ∧ ∃ t, exec (.addReg 0 1) (regs01 0xFF 0x01) = .next t :=
  ⟨fun _ _ h => Instr.noConfusion h, _, rfl⟩

/-- The block that ends at 0xFFF, and one byte further. -/
theorem witness_StRegsStoresTheBlockOrHalts :
    (topState.mem.wf = true ∧ (topState.setI 0xFF0).i.toNat + (15 : RegIdx).val ≤ 0xFFF) ∧
    0xFFF < (topState.setI 0xFF1).i.toNat + (15 : RegIdx).val := by decide

theorem witness_LdRegsLoadsTheBlockOrHalts :
    topState.i.toNat + (0 : RegIdx).val ≤ 0xFFF ∧ 0xFFF < topState.i.toNat + (1 : RegIdx).val := by decide

/-- After the store, the same memory and I. -/
theorem witness_StoreThenLoadRestoresTheRegisters :
    topState.mem.wf = true ∧ topState.i.toNat + (0 : RegIdx).val ≤ 0xFFF ∧
    (topState.storeRegs 1).mem = (topState.storeRegs 1).mem ∧ (topState.storeRegs 1).i = topState.i := by decide

theorem witness_StoredBytesAreFetchedAtOnce :
    topState.mem.wf = true ∧ (topState.setI 0xFFE).i.toNat + (1 : RegIdx).val ≤ 0xFFF ∧
    (1 : RegIdx).val = (0 : RegIdx).val + 1 ∧ (1 : RegIdx) ≤ 1 ∧
    (0xFFE : Word).toNat = (topState.setI 0xFFE).i.toNat + (0 : RegIdx).val := by decide

theorem witness_CanonicalMemoriesAreDeterminedByTheirReads :
    topState.mem.wf = true ∧ ((topState.mem.write 0x200 0x12).write 0x200 0).wf = true ∧
    ∀ a, topState.mem.read a = ((topState.mem.write 0x200 0x12).write 0x200 0).read a := by
  refine ⟨by decide, by decide, fun a => ?_⟩
  rw [show (topState.mem.write 0x200 0x12).write 0x200 0 = topState.mem by decide]

/-- One row at 0xFFF, no row there, two rows there; a covered and an uncovered pixel, a collision and none. -/
theorem witness_DrwXorsTheSpriteAndReportsCollision :
    (topState.i.toNat + (1 : Nibble).toNat - 1 ≤ 0xFFF) ∧ (0 : Nibble).toNat = 0 ∧
    (1 ≤ (2 : Nibble).toNat ∧ 0xFFF < topState.i.toNat + (2 : Nibble).toNat - 1) ∧
    SpriteCovers dot 0 1 1 0 0 ∧ ¬ SpriteCovers dot 0 1 1 1 0 ∧
    (SpriteCovers (lit [(0, 0)] dot) 0 1 1 0 0 ∧ (lit [(0, 0)] dot).disp.pixel 0 0 = true) ∧
    (∀ cx cy, ¬ SpriteCovers State.reset 0 1 0 cx cy) := by
  refine ⟨by decide, by decide, by decide, ⟨0, 0, by decide⟩, ?_, ⟨⟨0, 0, by decide⟩, by decide⟩, ?_⟩
  · rintro ⟨row, j, hr, hj, hx, -, hb⟩
    have h0 : row = 0 := Nat.lt_one_iff.1 hr
    subst h0
    interval_cases j <;> revert hx hb <;> decide
  · rintro cx cy ⟨row, j, hr, -⟩
    exact absurd hr (Nat.not_lt_zero row)

/-- The same state after the draw. -/
theorem witness_DrawingTwiceRestoresTheDisplay :
    BlockFits dot.i.toNat (1 : Nibble).toNat ∧ (dot.drawSprite 0 1 1).getV 0 = dot.getV 0 ∧
    (dot.drawSprite 0 1 1).getV 1 = dot.getV 1 ∧ (dot.drawSprite 0 1 1).i = dot.i ∧ SameMem dot (dot.drawSprite 0 1 1) ∧
    SpriteCovers dot 0 1 1 0 0 ∧ dot.disp.pixel 0 0 = false :=
  ⟨by decide, by decide, by decide, rfl, fun _ => rfl, ⟨0, 0, by decide⟩, by decide⟩

/-- A run from a clear with a draw that hits the pixel and an instruction that does not. -/
theorem witness_PixelIsTheXorOfTheBitsDrawn :
    ∃ s u, exec .cls dot = .next s ∧ Instr.cls ∉ [Instr.drw 0 1 1, Instr.jp 0x200] ∧
      DrawnOn 0 0 [Instr.drw 0 1 1, Instr.jp 0x200] s 1 u :=
  ⟨_, _, rfl, by decide,
    .hit _ _ _ _ _ 0 (execDrw_fits 0 1 1 (by decide)) ⟨0, 1, 1, rfl, by decide, 0, 0, by decide⟩
      (.miss _ _ _ _ _ 0 rfl (by rintro ⟨x, y, n, h, -⟩; cases h) (.nil _))⟩

theorem witness_NamedUnimplementedRowsOnlyReport :
    ∀ r ∈ namedUnimplementedRows, (r.pattern ||| 0x0F00) &&& r.mask = r.pattern := by decide

theorem witness_OnlyStRegsWritesMemory :
    (∀ x, Instr.ldRegs 3 ≠ .stRegs x) ∧ ∃ t, exec (.ldRegs 3) dot = .next t :=
  ⟨fun _ h => Instr.noConfusion h, exec_answers_next _ _⟩

/-- A draw, and an instruction that does not draw. -/
theorem witness_OnlyClsAndDrwChangeThePixels :
    dot.status = .running ∧ dot.out.dirty = false ∧
    (∃ t, exec (.drw 0 1 1) dot = .next t ∧ t.status = .running) ∧
    ((Instr.jp 0x200 ≠ .cls ∧ ∀ x y n, Instr.jp 0x200 ≠ .drw x y n) ∧ ∃ t, exec (.jp 0x200) dot = .next t) :=
  ⟨rfl, rfl, ⟨_, execDrw_fits 0 1 1 (by decide), rfl⟩, ⟨by decide, fun _ _ _ h => Instr.noConfusion h⟩, _, rfl⟩

theorem witness_OnlyCallAndRetTouchTheStack :
    Instr.cls ≠ .ret ∧ (∀ nnn, Instr.cls ≠ .call nnn) ∧ ∃ t, exec .cls topState = .next t :=
  ⟨by decide, fun _ h => Instr.noConfusion h, _, rfl⟩

theorem witness_OnlyLdIAndAddIWriteTheIndex :
    (∃ t, exec (.addI 0) (topState.setV 0 0xFF) = .next t) ∧ (∃ t, exec (.ldI 0xFFF) topState = .next t) ∧
    ((∀ nnn, Instr.cls ≠ .ldI nnn) ∧ (∀ x, Instr.cls ≠ .addI x) ∧ ∃ t, exec .cls topState = .next t) :=
  ⟨⟨_, rfl⟩, ⟨_, rfl⟩, fun _ h => Instr.noConfusion h, fun _ h => Instr.noConfusion h, _, rfl⟩

theorem witness_OnlyNamedRegistersAreWritten :
    (∃ t, exec (.ldRegs 14) (topState.setI 0xFF1) = .next t) ∧ (15 : RegIdx) ∉ writesRegs (.ldRegs 14) :=
  ⟨exec_answers_next _ _, by decide⟩

/-- Each condition: RET at an empty stack, CALL at the bound, a store, a load and a draw past 0xFFF. -/
theorem witness_EachInstructionRaisesOnlyItsCondition :
    State.reset.status = .running ∧ topState.status = .running ∧
    exec .ret State.reset = .next (State.reset.halt .stackUnderflow) ∧
    exec (.call 0x300) topState = .next (topState.halt .stackOverflow) ∧
    exec (.stRegs 1) topState = .next (topState.halt (.outOfBounds .data 0x1000)) ∧
    exec (.ldRegs 1) topState = .next (topState.halt (.outOfBounds .data 0x1000)) ∧
    exec (.drw 0 0 2) topState = .next (topState.halt (.outOfBounds .data 0x1000)) :=
  ⟨rfl, rfl, execRet_empty (s := State.reset) rfl, execCall_full (s := topState) _ rfl,
    execStRegs_out (s := topState) _ (by decide), execLdRegs_out (s := topState) _ (by decide),
    execDrw_out (s := topState) _ _ _ (by decide) (by decide)⟩

theorem witness_StepKeepsTheInvariant : topState.Inv ∧ ∃ t, step topState = .next t :=
  ⟨topState_inv, by
    rw [step_fetch_in rfl (by decide), show decode _ = .instr (.jp 0xFFE) by decide]
    exact exec_answers_next (topState.clearOutputs.setPc (topState.pc + 2)) (.jp 0xFFE)⟩

theorem witness_ResetMeetsTheInvariant : Config.wf { stackDepth := some 1 } = true ∧ Config.wf { stackDepth := none } = true := by
  decide

/-- The empty image and one that ends at 0xFFF. -/
theorem witness_LoadKeepsTheInvariant :
    topState.Inv ∧ (∃ t, topState.load [] = .ok t) ∧ ∃ t, topState.load (List.replicate 3584 0x12) = .ok t :=
  ⟨topState_inv, ⟨_, rfl⟩, _, by simp only [State.load, imageOk, List.length_replicate]; rfl⟩

/-- A loaded session that has taken a step, a fresh one and one whose load failed. -/
theorem witness_ReachableSessionsMeetTheInvariant :
    (∃ q : Session, q.Reachable ∧ q.state.pc = 0x202) ∧
    (∃ q : Session, q.Reachable ∧ q.phase = .fresh) ∧ ∃ q : Session, q.Reachable ∧ q.phase = .loadFailed := by
  have h0 : (Session.start { stackDepth := some 1 }).Reachable := .start _ (by decide)
  refine ⟨?_, ⟨_, h0, rfl⟩, { Session.start { stackDepth := some 1 } with phase := .loadFailed }, ?_, rfl⟩
  · have h1 := Session.Reachable.move _ _ (.load [0x60, 0x05]) .loadOk h0 rfl
    exact ⟨_, .move _ _ .step _ h1 rfl, rfl⟩
  · refine .move _ _ (.load (List.replicate 3585 0)) .outOfSpace h0 ?_
    have hl : State.load (Session.start { stackDepth := some 1 }).state (List.replicate 3585 0) = .outOfSpace := by
      simp only [State.load, test_imageOk_refuses]
      rfl
    simp only [Session.move, hl]
    rfl

theorem witness_JumpToItselfRunsSafelyForEver :
    topState.status = .running ∧ topState.pc.toNat ≤ 0xFFE ∧ topState.wordAtPc = 0x1000 + topState.pc.toNat := by decide

/-- The longest image that fits and the shortest that does not; the last byte of the former. -/
theorem witness_LoadCopiesTheImage :
    (List.replicate 3584 (0x12 : Byte)).length ≤ 4096 - 0x200 ∧
    4096 - 0x200 < (List.replicate 3585 (0x12 : Byte)).length ∧
    (List.replicate 3584 (0x12 : Byte))[3583]? = some 0x12 ∧ (0x1FF < 0x200 ∨ 0x200 + 3584 ≤ 0x1FF) := by
  simp only [List.length_replicate, List.getElem?_replicate]
  decide

theorem witness_OversizedImageIsNeverStarted :
    (Session.start Config.hardwareDefault).phase = .fresh ∧ 3584 < (List.replicate 3585 (0 : Byte)).length := by
  refine ⟨rfl, ?_⟩
  simp only [List.length_replicate]
  decide

/-- The longest image that loads and the shortest that does not, in a fresh session. -/
theorem witness_HostMovesAreAllowedAsTabulated_load :
    (Session.start Config.hardwareDefault).phase = .fresh ∧ (List.replicate 3584 (0x12 : Byte)).length ≤ 3584 ∧
    3584 < (List.replicate 3585 (0x12 : Byte)).length := by
  refine ⟨rfl, ?_, ?_⟩ <;> simp only [List.length_replicate] <;> decide

/-- A stop of a loaded run, and a stop where there is no run. -/
theorem witness_HostMovesAreAllowedAsTabulated_stop :
    (Session.mk topState .loaded).move .stop = some (.none, Session.mk topState .stopped) ∧
    (Session.start Config.hardwareDefault).phase ≠ .loaded := ⟨rfl, by decide⟩

/-- A step that goes on and a step that is fatal. -/
theorem witness_HostMovesAreAllowedAsTabulated :
    (∃ r q', (Session.mk State.reset .loaded).move .step = some (r, q') ∧ q'.state.status = .running) ∧
    ∃ r q', (Session.mk (State.reset.setPc 0xFFF) .loaded).move .step = some (r, q') ∧
      q'.state.status = .halted (.outOfBounds .fetch 0xFFF) :=
  ⟨⟨_, _, rfl, rfl⟩, _, _, rfl, rfl⟩

/-- A reset after two draws, an RND (C00F at 200) and a failed fetch. -/
theorem witness_EveryDrawIsFresh :
    (∃ q', (Session.mk { State.reset with draws := 2 } .loaded).move .reset = some (.none, q') ∧ q'.state.draws = 2) ∧
    (∃ r q', (Session.mk (withBytes 0x200 [0xC0, 0x0F]) .loaded).move .step = some (r, q')) ∧
    (withBytes 0x200 [0xC0, 0x0F]).pc.toNat ≤ 0xFFE ∧ (0xC00F : Word).toNat = (withBytes 0x200 [0xC0, 0x0F]).wordAtPc ∧
    ∃ r q', (Session.mk (State.reset.setPc 0xFFF) .loaded).move .step = some (r, q') ∧
      0xFFF ≤ (State.reset.setPc 0xFFF).pc.toNat :=
  ⟨⟨_, rfl, rfl⟩, ⟨_, _, rfl⟩, by decide, by decide, _, _, rfl, by decide⟩

/-- A loaded session with a step that goes on, one that is fatal, a stop and a reset; a halted and a stopped session. -/
theorem witness_ARunGoesOnUntilAFatalStepOrTheHostEndsIt :
    ((Session.mk topState .loaded).phase = .loaded ∧ (Session.mk topState .loaded).state.status = .running) ∧
    (∃ r q', (Session.mk topState .loaded).move .step = some (r, q') ∧ q'.state.status = .running) ∧
    (∃ r q', (Session.mk (State.reset.setPc 0xFFF) .loaded).move .step = some (r, q') ∧
      q'.state.status = .halted (.outOfBounds .fetch 0xFFF)) ∧
    (∃ q', (Session.mk topState .loaded).move .stop = some (.none, q') ∧ q'.phase = .stopped) ∧
    (∃ q', (Session.mk topState .loaded).move .reset = some (.none, q')) ∧
    (State.reset.halt .stackUnderflow).status = .halted .stackUnderflow :=
  ⟨⟨rfl, rfl⟩, ⟨_, _, rfl, rfl⟩, ⟨_, _, rfl, rfl⟩, ⟨_, rfl, rfl⟩, ⟨_, rfl⟩, rfl⟩

/-- S8 as a run: the image 00 EE, which ends by a fatal step. -/
def underflowRun : RunStart := { cfg := { stackDepth := none }, image := [0x00, 0xEE], draws := 0 }

/-- T2.5 as a run: the image 12 00, a jump to itself. -/
def selfJumpRun : RunStart := { cfg := { stackDepth := some 1 }, image := [0x12, 0x00], draws := 7 }

/-- Both kinds of end as states, the jump to itself at the last fetch address. -/
theorem witness_TheEndOfARunIsUniqueAndFinal_states :
    (topState.status = .running ∧ topState.pc.toNat ≤ 0xFFE ∧ topState.wordAtPc = 0x1000 + topState.pc.toNat) ∧
    (topState.halt .stackOverflow).status = .halted .stackOverflow := by decide

/-- A fatal end after one step, whose start is no end, and a self-jump end before the first step. -/
theorem witness_TheEndOfARunIsUniqueAndFinal :
    (∃ s, underflowRun.reaches 0 s ∧ s.runEnd = none) ∧
    (∃ s, underflowRun.endsAt 1 s (.fatal .stackUnderflow)) ∧ ∃ s, selfJumpRun.endsAt 0 s .selfJump := by
  have h0 : ∀ t, underflowRun.reaches 0 t → t.runEnd = none := by
    intro t ht
    rw [reaches_functional ht ⟨_, rfl, .refl _⟩]
    decide
  refine ⟨⟨_, ⟨_, rfl, .refl _⟩, by decide⟩, ⟨_, ⟨_, rfl, .tail _ _ _ _ (.refl _) rfl⟩, rfl, ?_⟩,
    _, ⟨_, rfl, .refl _⟩, by decide, ?_⟩
  · intro j hj t ht
    rw [Nat.lt_one_iff.1 hj] at ht
    exact h0 t ht
  · intro j hj
    exact absurd hj (Nat.not_lt_zero j)

end Sys2Proof.Tests
end

/-! ## What an instruction may change, and what every step keeps

The statements of the state (spec/10_state.md). Three facts about `exec` carry them, each proved once over the
constructors of `Instr`: the frame (`exec_frame`), that the stack is not read (`exec_ignores_stack`), and that a meaning
run at a post-fetch state keeps the invariant (`exec_keeps_inv`). -/

namespace Sys2Proof.Machine

open Sys2Proof

section
variable {i : Instr} {s t : State} {P : State → Prop}

/-! ### Rules for `Completes` -/

/-- The one state that an instruction answers has the property that its completion was shown to have. -/
theorem Completes.of_exec (hc : Completes i s P) (h : exec i s = .next t) : P t := by
  obtain ⟨u, hu, hp⟩ := hc
  rw [hu] at h
  injection h with h
  exact h ▸ hp

theorem completes_ret (hempty : s.stack = [] → P (s.halt .stackUnderflow))
    (hpop : ∀ a rest, s.stack = a :: rest → P { s with pc := a, stack := rest }) : Completes .ret s P := by
  cases h : s.stack with
  | nil => exact ⟨_, execRet_empty h, hempty h⟩
  | cons a rest => exact ⟨_, execRet_pop a rest h, hpop a rest h⟩

theorem completes_call {nnn : Addr12} (hfull : s.cfg.stackDepth = some s.depth → P (s.halt .stackOverflow))
    (hpush : s.cfg.stackDepth ≠ some s.depth → P ((s.push s.pc).setPc (zextAddr nnn))) :
    Completes (.call nnn) s P := by
  by_cases h : s.cfg.stackDepth = some s.depth
  · exact ⟨_, execCall_full nnn h, hfull h⟩
  · exact ⟨_, execCall_push nnn h, hpush h⟩

theorem completes_drw {x y : RegIdx} {n : Nibble}
    (hfits : BlockFits s.i.toNat n.toNat → P (s.drawSprite x y n))
    (hout : ¬ BlockFits s.i.toNat n.toNat → P (s.halt (.outOfBounds .data 0x1000))) : Completes (.drw x y n) s P := by
  by_cases h : BlockFits s.i.toNat n.toNat
  · exact ⟨_, execDrw_fits x y n h, hfits h⟩
  · obtain ⟨h0, hlt⟩ := not_or.1 h
    exact ⟨_, execDrw_out x y n h0 (Nat.not_le.1 hlt), hout h⟩

theorem completes_stRegs {x : RegIdx} (hfits : s.i.toNat + x.val ≤ 0xFFF → P (s.storeRegs (x.val + 1)))
    (hout : 0xFFF < s.i.toNat + x.val → P (s.halt (.outOfBounds .data 0x1000))) : Completes (.stRegs x) s P := by
  rcases Nat.lt_or_ge 0xFFF (s.i.toNat + x.val) with h | h
  · exact ⟨_, execStRegs_out x h, hout h⟩
  · exact ⟨_, execStRegs_fits x h, hfits h⟩

theorem completes_ldRegs {x : RegIdx} (hfits : s.i.toNat + x.val ≤ 0xFFF → P (s.loadRegs (x.val + 1)))
    (hout : 0xFFF < s.i.toNat + x.val → P (s.halt (.outOfBounds .data 0x1000))) : Completes (.ldRegs x) s P := by
  rcases Nat.lt_or_ge 0xFFF (s.i.toNat + x.val) with h | h
  · exact ⟨_, execLdRegs_out x h, hout h⟩
  · exact ⟨_, execLdRegs_fits x h, hfits h⟩

/-! ### The frame of every instruction -/

/-- The parts of the state, besides the V registers, that an instruction may change: its effect, and the run status where
it can raise a fatal condition (60_exceptions.md R203 to R205). -/
def writesParts : Instr → List Part
  | .cls => [.disp, .dirty]
  | .ret | .call _ => [.pc, .stack, .status]
  | .jp _ | .seImm _ _ | .sneImm _ _ | .seReg _ _ | .sneReg _ _ | .jpV0 _ => [.pc]
  | .ldImm _ _ | .addImm _ _ | .ldReg _ _ | .orReg _ _ | .andReg _ _ | .xorReg _ _ => []
  | .addReg _ _ | .subReg _ _ | .shr _ _ | .subn _ _ | .shl _ _ => []
  | .ldI _ | .addI _ => [.i]
  | .rnd _ _ => [.draws]
  | .drw _ _ _ => [.disp, .dirty, .status]
  | .stRegs _ => [.mem, .status]
  | .ldRegs _ => [.status]
  | .unimplEx9E _ | .unimplExA1 _ | .unimplFx07 _ | .unimplFx0A _ => [.diag]
  | .unimplFx15 _ | .unimplFx18 _ | .unimplFx29 _ | .unimplFx33 _ => [.diag]

/-- A frame may be widened. -/
theorem Unchanged.mono {xs xs' : List RegIdx} {ps ps' : List Part} (h : Unchanged xs ps s t) (hx : xs ⊆ xs')
    (hp : ps ⊆ ps') : Unchanged xs' ps' s t := by
  obtain ⟨hr, hi, hpc, hstack, hmem, hdisp, hstatus, hdirty, hdiag, hdraws, hcfg⟩ := h
  exact ⟨fun r hn => hr r (mt (@hx r) hn), hi ∘ mt (@hp _), hpc ∘ mt (@hp _), hstack ∘ mt (@hp _), hmem ∘ mt (@hp _),
    hdisp ∘ mt (@hp _), hstatus ∘ mt (@hp _), hdirty ∘ mt (@hp _), hdiag ∘ mt (@hp _), hdraws ∘ mt (@hp _), hcfg⟩

theorem unchanged_halt_of_mem (xs : List RegIdx) {ps : List Part} (c : Cause) (h : Part.status ∈ ps) :
    Unchanged xs ps s (s.halt c) :=
  (unchanged_halt s c).mono (List.nil_subset _) (by simpa using h)

theorem unchanged_cls : Unchanged [] [.disp, .dirty] s ({ s with disp := Display.blank } : State).markDirty := by
  simp [Unchanged, SameRegsBut, SameMem, State.getV]

theorem unchanged_pop (a : Word) (rest : List Word) :
    Unchanged [] [.pc, .stack] s { s with pc := a, stack := rest } := by
  simp [Unchanged, SameRegsBut, SameMem, SameDisp, State.getV]

theorem unchanged_push_setPc (a b : Word) : Unchanged [] [.pc, .stack] s ((s.push a).setPc b) := by
  simp [Unchanged, SameRegsBut, SameMem, SameDisp]

theorem unchanged_rndWith (b : Byte) (x : RegIdx) (nn : Byte) (k : Nat) :
    Unchanged [x] [.draws] s { rndWith b x nn s with draws := k } := by
  obtain ⟨hr, hi, hpc, hstack, hmem, hdisp, hstatus, hdirty, hdiag, -, hcfg⟩ := unchanged_setV s x (b &&& nn) [.draws]
  exact ⟨hr, hi, hpc, hstack, hmem, hdisp, hstatus, hdirty, hdiag, fun h => absurd (List.mem_singleton.2 rfl) h, hcfg⟩

/-- The frame of `exec`: nothing changes but the registers `writesRegs` and the parts `writesParts`. -/
theorem exec_frame (i : Instr) (s : State) : Completes i s (Unchanged (writesRegs i) (writesParts i) s) := by
  cases i
  case cls => exact ⟨_, rfl, unchanged_cls⟩
  case ret =>
    exact completes_ret (fun _ => unchanged_halt_of_mem _ _ (by simp [writesParts]))
      (fun a rest _ => (unchanged_pop a rest).mono (List.nil_subset _) (by simp [writesParts]))
  case call nnn =>
    exact completes_call (fun _ => unchanged_halt_of_mem _ _ (by simp [writesParts]))
      (fun _ => (unchanged_push_setPc _ _).mono (List.nil_subset _) (by simp [writesParts]))
  case jp | jpV0 => exact ⟨_, rfl, unchanged_setPc s _⟩
  case seImm | sneImm | seReg | sneReg => exact ⟨_, rfl, unchanged_skipIf s _⟩
  case ldImm | addImm | ldReg | orReg | andReg | xorReg => exact ⟨_, rfl, unchanged_setV s _ _ []⟩
  case addReg | subReg | shr | subn | shl => exact ⟨_, rfl, unchanged_setResultAndFlag s _ _ _ []⟩
  case ldI | addI => exact ⟨_, rfl, unchanged_setI s _⟩
  case rnd x nn => exact ⟨_, rfl, unchanged_rndWith _ x nn _⟩
  case drw x y n =>
    exact completes_drw (fun _ => (unchanged_drawSprite s x y n).mono (List.Subset.refl _) (by simp [writesParts]))
      (fun _ => unchanged_halt_of_mem _ _ (by simp [writesParts]))
  case stRegs x =>
    exact completes_stRegs (fun _ => (unchanged_storeRegs s _).mono (List.nil_subset _) (by simp [writesParts]))
      (fun _ => unchanged_halt_of_mem _ _ (by simp [writesParts]))
  case ldRegs x =>
    exact completes_ldRegs (fun _ => (unchanged_loadRegs s x).mono (List.Subset.refl _) (List.nil_subset _))
      (fun _ => unchanged_halt_of_mem _ _ (by simp [writesParts]))
  all_goals exact ⟨_, rfl, unchanged_emitUnimplemented s _⟩

/-! ### Who may write which part -/

theorem i_mem_writesParts : Part.i ∈ writesParts i ↔ (∃ nnn, i = .ldI nnn) ∨ ∃ x, i = .addI x := by
  cases i <;> simp [writesParts]

theorem stack_mem_writesParts : Part.stack ∈ writesParts i ↔ i = .ret ∨ ∃ nnn, i = .call nnn := by
  cases i <;> simp [writesParts]

theorem disp_mem_writesParts : Part.disp ∈ writesParts i ↔ i = .cls ∨ ∃ x y n, i = .drw x y n := by
  cases i <;> simp [writesParts]

theorem dirty_mem_writesParts : Part.dirty ∈ writesParts i ↔ i = .cls ∨ ∃ x y n, i = .drw x y n := by
  cases i <;> simp [writesParts]

/-! ### The stack is read by CALL and RET alone -/

theorem skipIf_withStack (c : Bool) (k : List Word) :
    ({ s with stack := k } : State).skipIf c = { s.skipIf c with stack := k } := by
  cases c <;> rfl

theorem loadRegs_withStack (n : Nat) (k : List Word) :
    ({ s with stack := k } : State).loadRegs n = { s.loadRegs n with stack := k } := by
  induction n with
  | zero => rfl
  | succ n ih => rw [State.loadRegs, ih]; rfl

theorem exec_ignores_stack (s : State) (k : List Word) (hret : i ≠ .ret) (hcall : ∀ nnn, i ≠ .call nnn) :
    Completes i s (fun t => exec i { s with stack := k } = .next { t with stack := k }) := by
  cases i
  case ret => exact absurd rfl hret
  case call nnn => exact absurd rfl (hcall nnn)
  case seImm | sneImm | seReg | sneReg => exact ⟨_, rfl, congrArg Host.Outcome.next (skipIf_withStack _ k)⟩
  case drw x y n =>
    refine completes_drw (fun h => execDrw_fits (s := { s with stack := k }) x y n h) (fun h => ?_)
    obtain ⟨h0, hlt⟩ := not_or.1 h
    exact execDrw_out (s := { s with stack := k }) x y n h0 (Nat.not_le.1 hlt)
  case stRegs x =>
    exact completes_stRegs (execStRegs_fits (s := { s with stack := k }) x)
      (execStRegs_out (s := { s with stack := k }) x)
  case ldRegs x =>
    exact completes_ldRegs
      (fun h => (execLdRegs_fits (s := { s with stack := k }) x h).trans (congrArg _ (loadRegs_withStack _ k)))
      (execLdRegs_out (s := { s with stack := k }) x)
  all_goals exact ⟨_, rfl, rfl⟩

/-! ### Addresses written are in range -/

theorem zextAddr_le (nnn : Addr12) : (zextAddr nnn).toNat ≤ 0xFFF := by
  have := nnn.isLt
  rw [toNat_zextAddr]
  omega

theorem maskAddr_le (sum : Nat) : (maskAddr sum).toNat ≤ 0xFFF := by
  rw [toNat_maskAddr]
  omega

/-! ### The invariant, update by update -/

/-- The invariant reads six fields. -/
theorem State.Inv.of_eq (h : s.Inv) (hmem : t.mem = s.mem) (hi : t.i = s.i) (hpc : t.pc = s.pc)
    (hstack : t.stack = s.stack) (hstatus : t.status = s.status) (hcfg : t.cfg = s.cfg) : t.Inv where
  mem := hmem ▸ h.mem
  index := hi ▸ h.index
  pc := hpc ▸ h.pc
  stack := hstack ▸ h.stack
  depth := by simpa only [State.depth, hstack, hcfg] using h.depth
  cause := by simpa only [hstatus, hcfg] using h.cause

theorem State.Inv.setPc (h : s.Inv) {a : Word} (ha : a.toNat ≤ 0x1002) : (s.setPc a).Inv :=
  ⟨h.mem, h.index, ha, h.stack, h.depth, h.cause⟩

theorem State.Inv.setI (h : s.Inv) {a : Word} (ha : a.toNat ≤ 0xFFF) : (s.setI a).Inv :=
  ⟨h.mem, ha, h.pc, h.stack, h.depth, h.cause⟩

theorem State.Inv.halt (h : s.Inv) {c : Cause} (hc : c.ok s.cfg) : (s.halt c).Inv where
  mem := h.mem
  index := h.index
  pc := h.pc
  stack := h.stack
  depth := h.depth
  cause := by
    rintro _ ⟨⟩
    exact hc

theorem State.Inv.skipIf (h : s.Inv) (hpc : s.pc.toNat ≤ 0x1000) (c : Bool) : (s.skipIf c).Inv := by
  cases c with
  | false => exact h
  | true => exact h.setPc (a := s.pc + 2) (by bv_omega)

/-- A popped entry is a post-fetch PC, so it is in PC's range (10_state.md R29). -/
theorem State.Inv.pop (h : s.Inv) {a : Word} {rest : List Word} (hs : s.stack = a :: rest) :
    ({ s with pc := a, stack := rest } : State).Inv where
  mem := h.mem
  index := h.index
  pc := by
    have := (h.stack a (by simp [hs])).2
    simp only
    omega
  stack b hb := h.stack b (by simp [hs, hb])
  depth d hd := by
    obtain ⟨h1, hle⟩ := h.depth d hd
    simp only [State.depth, hs, List.length_cons] at hle ⊢
    omega
  cause := h.cause

theorem State.Inv.push (h : s.Inv) {a : Word} (hlo : 2 ≤ a.toNat) (hhi : a.toNat ≤ 0x1000)
    (hroom : s.cfg.stackDepth ≠ some s.depth) : (s.push a).Inv where
  mem := h.mem
  index := h.index
  pc := h.pc
  stack b hb := by
    rcases List.mem_cons.1 hb with rfl | hb
    · exact ⟨hlo, hhi⟩
    · exact h.stack b hb
  depth d hd := by
    obtain ⟨h1, hle⟩ := h.depth d hd
    have hne : s.depth ≠ d := fun e => hroom (e ▸ hd)
    exact ⟨h1, Nat.lt_of_le_of_ne hle hne⟩
  cause := h.cause

theorem State.Inv.storeRegs (h : s.Inv) {n : Nat} (hn : n ≤ 16) (hfit : s.i.toNat + n ≤ memSize) :
    (s.storeRegs n).Inv :=
  ⟨wf_writeBlock _ _ _ h.mem (by rwa [regBlock_length s n hn]), h.index, h.pc, h.stack, h.depth, h.cause⟩

theorem State.Inv.loadRegs (h : s.Inv) (n : Nat) : (s.loadRegs n).Inv :=
  h.of_eq (loadRegs_mem s n) (loadRegs_i s n) (loadRegs_pc s n) (loadRegs_stack s n) (loadRegs_status s n)
    (loadRegs_cfg s n)

/-! ### Every step keeps the invariant -/

/-- A meaning run at a post-fetch state keeps the invariant. A post-fetch PC is in 0x002..0x1000 (10_state.md R29): that is
what CALL may push, and what a skip may add 2 to. -/
theorem exec_keeps_inv (i : Instr) (h : s.Inv) (hlo : 2 ≤ s.pc.toNat) (hhi : s.pc.toNat ≤ 0x1000) :
    Completes i s State.Inv := by
  cases i
  case ret => exact completes_ret (fun _ => h.halt trivial) (fun _ _ hs => h.pop hs)
  case call nnn =>
    exact completes_call (fun hfull => h.halt (by simp [Cause.ok, hfull]))
      (fun hroom => (h.push hlo hhi hroom).setPc ((zextAddr_le nnn).trans (by decide)))
  case jp nnn => exact ⟨_, rfl, h.setPc ((zextAddr_le nnn).trans (by decide))⟩
  case jpV0 nnn => exact ⟨_, rfl, h.setPc ((maskAddr_le _).trans (by decide))⟩
  case seImm | sneImm | seReg | sneReg => exact ⟨_, rfl, h.skipIf hhi _⟩
  case ldI nnn => exact ⟨_, rfl, h.setI (zextAddr_le nnn)⟩
  case addI x => exact ⟨_, rfl, h.setI (maskAddr_le _)⟩
  case drw x y n => exact completes_drw (fun _ => h.of_eq rfl rfl rfl rfl rfl rfl) (fun _ => h.halt rfl)
  case stRegs x =>
    exact completes_stRegs (fun hfit => h.storeRegs (by omega) (by simp only [memSize]; omega)) (fun _ => h.halt rfl)
  case ldRegs x => exact completes_ldRegs (fun _ => h.loadRegs _) (fun _ => h.halt rfl)
  all_goals exact ⟨_, rfl, h.of_eq rfl rfl rfl rfl rfl rfl⟩

theorem execDecoded_keeps_inv (d : Decoded) (h : s.Inv) (hlo : 2 ≤ s.pc.toNat) (hhi : s.pc.toNat ≤ 0x1000)
    (hd : execDecoded d s = .next t) : t.Inv := by
  cases d with
  | instr i => exact (exec_keeps_inv i h hlo hhi).of_exec hd
  | unimplemented w =>
    injection hd with hd
    exact hd ▸ h.of_eq rfl rfl rfl rfl rfl rfl

theorem step_keeps_inv (h : s.Inv) (hstep : step s = .next t) : t.Inv := by
  have hc : s.clearOutputs.Inv := h.of_eq rfl rfl rfl rfl rfl rfl
  obtain ⟨-, ⟨hout, rfl⟩ | ⟨hin, hexec⟩⟩ := step_cases hstep
  · exact hc.halt ⟨hout, h.pc⟩
  · have hpc := postFetch_pc hin
    exact execDecoded_keeps_inv _ (hc.setPc (a := s.pc + 2) (by omega)) (by simp only [setPc_pc]; omega)
      (by simp only [setPc_pc]; omega) hexec

/-! ### The state after reset -/

theorem stackDepth_pos_of_wf {cfg : Config} (h : cfg.wf = true) {d : Nat} (hd : cfg.stackDepth = some d) : 1 ≤ d := by
  simpa [Config.wf, hd] using h

theorem resetWith_inv {cfg : Config} (h : cfg.wf = true) : (State.resetWith cfg).Inv where
  mem := rfl
  index := by simp [State.resetWith]
  pc := by simp [State.resetWith]
  stack := by simp [State.resetWith]
  depth d hd := ⟨stackDepth_pos_of_wf h hd, Nat.zero_le d⟩
  cause c hc := by cases hc

theorem getV_resetWith (cfg : Config) (x : RegIdx) : (State.resetWith cfg).getV x = 0 := by
  simp [State.getV, State.resetWith]

/-! ### A step is possible exactly in Running -/

theorem execDecoded_answers_next (d : Decoded) (s : State) : ∃ t, execDecoded d s = .next t := by
  cases d with
  | instr i => exact exec_answers_next s i
  | unimplemented w => exact ⟨_, rfl⟩

theorem step_answers_next (hs : s.status = .running) : ∃ t, step s = .next t := by
  rcases Nat.lt_or_ge s.pc.toNat 0xFFF with h | h
  · rw [step_fetch_in hs h]
    exact execDecoded_answers_next _ _
  · exact ⟨_, step_fetch_out hs h⟩

/-! ### A pixel, instruction by instruction -/

theorem exec_flips_pixel {cx : Fin 64} {cy : Fin 32} (h : exec i s = .next t) (hd : DrawsOn i s cx cy) :
    t.disp.pixel cx cy = !s.disp.pixel cx cy := by
  obtain ⟨x, y, n, rfl, hfits, hcov⟩ := hd
  have hc : Completes (.drw x y n) s (fun t => t.disp.pixel cx cy = !s.disp.pixel cx cy) :=
    completes_drw (fun _ => (drawSprite_pixel x y n cx cy).1 hcov) (fun hout => absurd hfits hout)
  exact hc.of_exec h

theorem exec_keeps_pixel {cx : Fin 64} {cy : Fin 32} (h : exec i s = .next t) (hcls : i ≠ .cls)
    (hd : ¬ DrawsOn i s cx cy) : t.disp.pixel cx cy = s.disp.pixel cx cy := by
  by_cases hdrw : ∃ x y n, i = .drw x y n
  · obtain ⟨x, y, n, rfl⟩ := hdrw
    have hc : Completes (.drw x y n) s (fun t => t.disp.pixel cx cy = s.disp.pixel cx cy) :=
      completes_drw (fun hfits => (drawSprite_pixel x y n cx cy).2 (fun hcov => hd ⟨x, y, n, rfl, hfits, hcov⟩))
        (fun _ => rfl)
    exact hc.of_exec h
  · obtain ⟨-, -, -, -, -, hdisp, -⟩ := (exec_frame i s).of_exec h
    exact hdisp (by simp [disp_mem_writesParts, hcls, hdrw]) cx cy

/-- Along a list without CLS a pixel is flipped once per draw that puts a bit of 1 on it (44_display.md R176). -/
theorem drawnOn_pixel {cx : Fin 64} {cy : Fin 32} {is : List Instr} {k : Nat} (h : DrawnOn cx cy is s k t)
    (hcls : Instr.cls ∉ is) : t.disp.pixel cx cy = (s.disp.pixel cx cy ^^ decide (k % 2 = 1)) := by
  induction h with
  | nil s => simp
  | hit i is s t u k h hd _ ih =>
    rw [ih (fun hm => hcls (.tail _ hm)), exec_flips_pixel h hd]
    have hk : decide ((k + 1) % 2 = 1) = !decide (k % 2 = 1) := by
      rw [← decide_not, decide_eq_decide]
      omega
    rw [hk, Bool.not_xor, Bool.xor_not]
  | miss i is s t u k h hd _ ih =>
    rw [ih (fun hm => hcls (.tail _ hm)), exec_keeps_pixel h (fun e => hcls (e ▸ .head _)) hd]

/-- CLS, and DRW where it is not fatal, set `display_dirty` (40_step_cycle.md R107). -/
theorem exec_sets_dirty (hi : i = .cls ∨ ∃ x y n, i = .drw x y n) :
    Completes i s (fun t => t.status = .running → t.out.dirty = true) := by
  obtain rfl | ⟨x, y, n, rfl⟩ := hi
  · exact ⟨_, rfl, fun _ => rfl⟩
  · exact completes_drw (fun _ _ => rfl) (fun _ hrun => RunStatus.noConfusion hrun)

end

/-! ### The statements -/

/-- Settles O47, by cases on the outcome of the fetch: a failed fetch records a PC in 0xFFF..0x1002, and after a fetch
every meaning keeps the invariant. -/
theorem stepKeepsTheInvariant : Obligations.StepKeepsTheInvariant :=
  fun _ _ => step_keeps_inv

/-- Settles O11, from the inversion of a step and the fact that no meaning faults or refuses. -/
theorem stepIsPossibleExactlyWhenRunning : Obligations.StepIsPossibleExactlyWhenRunning :=
  fun _ => ⟨⟨fun ⟨_, h⟩ => (step_cases h).1, step_answers_next⟩, step_halted⟩

/-- Settles O39, by induction on the instructions executed. -/
theorem pixelIsTheXorOfTheBitsDrawn : Obligations.PixelIsTheXorOfTheBitsDrawn := by
  intro cx cy is s u k hcls h
  have hpix := drawnOn_pixel h hcls
  refine ⟨hpix, fun s0 h0 => ?_⟩
  have hc : Completes .cls s0 (fun s => s.disp.pixel cx cy = false) := ⟨_, rfl, pixel_blank cx cy⟩
  rw [hpix, hc.of_exec h0, Bool.false_xor]

/-- Settles O42, from the frame of every instruction and the outputs of CLS and DRW. -/
theorem onlyClsAndDrwChangeThePixels : Obligations.OnlyClsAndDrwChangeThePixels := by
  intro i s t _ hclean h
  refine ⟨fun hi => (exec_sets_dirty hi).of_exec h, fun ⟨hcls, hdrw⟩ => ?_⟩
  obtain ⟨-, -, -, -, -, hdisp, -, hdirty, -⟩ := (exec_frame i s).of_exec h
  have hno : ¬ (i = .cls ∨ ∃ x y n, i = .drw x y n) := by simp [hcls, hdrw]
  exact ⟨(hdirty (mt dirty_mem_writesParts.1 hno)).trans hclean, hdisp (mt disp_mem_writesParts.1 hno)⟩

/-- Settles O43, from the frame of every instruction and the fact that only CALL and RET read the stack. -/
theorem onlyCallAndRetTouchTheStack : Obligations.OnlyCallAndRetTouchTheStack := by
  intro i s t k hret hcall h
  obtain ⟨-, -, -, hstack, -⟩ := (exec_frame i s).of_exec h
  exact ⟨hstack (by simp [stack_mem_writesParts, hret, hcall]), (exec_ignores_stack s k hret hcall).of_exec h⟩

/-- Settles O44, from the frame of every instruction and the range of what LD_I and ADD_I write. -/
theorem onlyLdIAndAddIWriteTheIndex : Obligations.OnlyLdIAndAddIWriteTheIndex := by
  intro i s t h
  refine ⟨fun hld hadd => ?_, ?_⟩
  · obtain ⟨-, hi, -⟩ := (exec_frame i s).of_exec h
    exact hi (by simp [i_mem_writesParts, hld, hadd])
  · rintro (⟨nnn, rfl⟩ | ⟨x, rfl⟩)
    · have hc : Completes (.ldI nnn) s (fun t => t.i.toNat ≤ 0xFFF) := ⟨_, rfl, zextAddr_le nnn⟩
      exact hc.of_exec h
    · have hc : Completes (.addI x) s (fun t => t.i.toNat ≤ 0xFFF) := ⟨_, rfl, maskAddr_le _⟩
      exact hc.of_exec h

/-- Settles O45: it is the register part of the frame of every instruction. -/
theorem onlyNamedRegistersAreWritten : Obligations.OnlyNamedRegistersAreWritten := by
  intro i s t h
  obtain ⟨hregs, -⟩ := (exec_frame i s).of_exec h
  exact hregs

/-- Settles O48; the default parameters are legal. -/
theorem resetMeetsTheInvariant : Obligations.ResetMeetsTheInvariant :=
  ⟨fun _ => resetWith_inv, resetWith_inv (by decide)⟩

/-- Settles O52, piece by piece. -/
theorem resetGivesEveryPieceItsValue : Obligations.ResetGivesEveryPieceItsValue :=
  fun cfg => ⟨fun _ => rfl, rfl, getV_resetWith cfg, rfl, rfl, pixel_blank, rfl, rfl⟩

end Sys2Proof.Machine

/-! ## Memory: the canonical form, stores, and the load of an image

The statements of spec/20_memory.md. What they need is said once: a canonical memory is read off entry by entry
(`eq_of_read_eq`), what a store leaves at an address (`read_storeRegs`), what a load answers (`load_eq_ok_iff`,
`load_outOfSpace`), and where the host has no move (`move_step_eq_none`, `move_load_eq_none`). -/

namespace Sys2Proof.Machine

open Sys2Proof

section
variable {i : Instr} {s t : State} {m m' : Memory} {bytes : List Byte} {q : Session}

/-! ### A canonical memory, entry by entry -/

theorem wfFrom_cons {lo k : Nat} {c : Byte} : Memory.wfFrom lo ((k, c) :: m) = true ↔
    lo ≤ k ∧ k < memSize ∧ c ≠ Memory.unlisted ∧ Memory.wfFrom (k + 1) m = true := by
  simp [Memory.wfFrom, and_assoc]

@[simp] theorem read_cons_self (k : Nat) (c : Byte) (m : Memory) : Memory.read ((k, c) :: m) k = c := by
  simp [Memory.read]

theorem read_cons_ne {k a : Nat} (c : Byte) (h : a ≠ k) : Memory.read ((k, c) :: m) a = m.read a := by
  simp [Memory.read, h]

/-- A listed address reads as no unlisted one does, so the other memory's first entry stands no later. -/
theorem head_le_of_read_eq {lo lo' k k' : Nat} {c c' : Byte} (hm : Memory.wfFrom lo ((k, c) :: m) = true)
    (hm' : Memory.wfFrom lo' ((k', c') :: m') = true)
    (h : ∀ a, Memory.read ((k, c) :: m) a = Memory.read ((k', c') :: m') a) : k' ≤ k := by
  obtain ⟨-, -, hc, -⟩ := wfFrom_cons.1 hm
  obtain ⟨-, hk'⟩ := wfFrom_cons.1 hm'
  by_contra hlt
  have hread : Memory.read ((k', c') :: m') k = Memory.unlisted :=
    read_below _ k' k (wfFrom_cons.2 ⟨Nat.le_refl k', hk'⟩) (by omega)
  exact hc (by rw [← hread, ← h k, read_cons_self])

/-- Two canonical memories that read the same have the same first entry, and their tails read the same. -/
theorem eq_of_read_eq {lo : Nat} (hm : Memory.wfFrom lo m = true) (hm' : Memory.wfFrom lo m' = true)
    (h : ∀ a, m.read a = m'.read a) : m = m' := by
  induction m generalizing lo m' with
  | nil =>
    cases m' with
    | nil => rfl
    | cons e' m' =>
      obtain ⟨-, -, hc', -⟩ := wfFrom_cons.1 hm'
      exact absurd ((h e'.1).trans (read_cons_self ..)).symm hc'
  | cons e m ih =>
    obtain ⟨k, c⟩ := e
    obtain ⟨-, -, hc, htail⟩ := wfFrom_cons.1 hm
    cases m' with
    | nil => exact absurd ((read_cons_self ..).symm.trans (h k)) hc
    | cons e' m' =>
      obtain ⟨k', c'⟩ := e'
      obtain rfl : k = k' := Nat.le_antisymm (head_le_of_read_eq hm' hm fun a => (h a).symm) (head_le_of_read_eq hm hm' h)
      obtain ⟨-, -, -, htail'⟩ := wfFrom_cons.1 hm'
      have hhead : c = c' := by simpa using h k
      have hreads (a : Nat) : Memory.read m a = Memory.read m' a := by
        by_cases ha : a = k
        · rw [read_below m (k + 1) a htail (by omega), read_below m' (k + 1) a htail' (by omega)]
        · simpa only [read_cons_ne _ ha] using h a
      rw [hhead, ih htail htail' hreads]

/-! ### What a store leaves at an address -/

/-- ST_REGS: the byte at I + r is V[r], for r below the count (43_index_and_memory.md R162). -/
theorem read_storeRegs {n : Nat} {r : RegIdx} (hwf : s.mem.wf = true) (hn : n ≤ 16) (hfit : s.i.toNat + n ≤ memSize)
    (hr : r.val < n) : (s.storeRegs n).mem.read (s.i.toNat + r.val) = s.getV r :=
  read_writeBlock_in _ _ _ _ _ hwf (by rwa [regBlock_length s n hn]) (regBlock_get s n r hr)

theorem mem_mem_writesParts : Part.mem ∈ writesParts i ↔ ∃ x, i = .stRegs x := by
  cases i <;> simp [writesParts]

/-! ### What a load answers (20_memory.md R64, R65) -/

theorem load_eq_ok (s : State) (h : bytes.length ≤ maxImage) :
    s.load bytes = .ok { s with mem := s.mem.writeBlock programBase bytes } := by
  simp [State.load, imageOk, h]

theorem load_outOfSpace (s : State) (h : maxImage < bytes.length) : s.load bytes = .outOfSpace := by
  simp [State.load, imageOk, h]

theorem load_eq_ok_iff : s.load bytes = .ok t ↔
    bytes.length ≤ maxImage ∧ t = { s with mem := s.mem.writeBlock programBase bytes } := by
  rcases Nat.lt_or_ge maxImage bytes.length with h | h
  · simp [load_outOfSpace s h, h]
  · simp [load_eq_ok s h, h, eq_comm]

/-- An image that loads ends at or below 0xFFF. -/
theorem image_fits (h : bytes.length ≤ maxImage) : programBase + bytes.length ≤ memSize := by
  simp only [maxImage, programBase, memSize] at *
  omega

theorem unchanged_withMem (s : State) (m : Memory) : Unchanged [] [.mem] s { s with mem := m } := by
  simp [Unchanged, SameRegsBut, SameDisp, State.getV]

/-- Of what the invariant says a change of memory touches the canonical form alone. -/
theorem State.Inv.withMem (h : s.Inv) (hm : m.wf = true) : ({ s with mem := m } : State).Inv :=
  ⟨hm, h.index, h.pc, h.stack, h.depth, h.cause⟩

/-! ### Where the host has no move (40_step_cycle.md R111) -/

theorem move_load_outOfSpace (hq : q.phase = .fresh) (h : maxImage < bytes.length) :
    q.move (.load bytes) = some (.outOfSpace, { q with phase := .loadFailed }) := by
  simp [Session.move, hq, load_outOfSpace _ h]

theorem move_load_eq_none (h : q.phase ≠ .fresh) : q.move (.load bytes) = none := by
  cases hq : q.phase with
  | fresh => exact absurd hq h
  | loaded | loadFailed | stopped => simp [Session.move, hq]

theorem move_step_eq_none (h : q.phase ≠ .loaded) : q.move .step = none := by
  cases hq : q.phase with
  | loaded => exact absurd hq h
  | fresh | loadFailed | stopped => simp [Session.move, hq]

end

/-! ### The statements -/

/-- Settles O33: the fetch reads the two bytes that the store has just left, at I + k and I + k + 1. -/
theorem storedBytesAreFetchedAtOnce : Obligations.StoredBytesAreFetchedAtOnce := by
  intro x k k' s hwf hfit hk' hle
  refine ⟨_, execStRegs_fits x hfit, fun pc hpc => ?_⟩
  have hx : k'.val ≤ x.val := hle
  have hstored : ∀ r : RegIdx, r.val ≤ x.val →
      (s.storeRegs (x.val + 1)).mem.read (s.i.toNat + r.val) = s.getV r := fun r hr =>
    read_storeRegs hwf (by omega) (by simp only [memSize]; omega) (by omega)
  refine ⟨_, _, fetch_in (by simp only [setPc_pc]; omega), ?_⟩
  rw [toNat_wordOfBytes, setPc_mem, setPc_pc, hpc, hstored k (by omega),
    show s.i.toNat + k.val + 1 = s.i.toNat + k'.val by omega, hstored k' hx]

/-- Settles O34, by induction on the two lists: the canonical form from any address on. -/
theorem canonicalMemoriesAreDeterminedByTheirReads : Obligations.CanonicalMemoriesAreDeterminedByTheirReads :=
  fun _ _ => eq_of_read_eq

/-- Settles O41: it is the memory part of the frame of every instruction. -/
theorem onlyStRegsWritesMemory : Obligations.OnlyStRegsWritesMemory := by
  intro i s t hi h
  obtain ⟨-, -, -, -, hmem, -⟩ := (exec_frame i s).of_exec h
  exact hmem (by simp [mem_mem_writesParts, hi])

/-- Settles O49: a load is a block write in range, which keeps the canonical form. -/
theorem loadKeepsTheInvariant : Obligations.LoadKeepsTheInvariant := by
  intro s t bytes hinv h
  obtain ⟨hlen, rfl⟩ := load_eq_ok_iff.1 h
  exact ⟨hinv.withMem (wf_writeBlock _ _ _ hinv.mem (image_fits hlen)), unchanged_withMem s _⟩

/-- Settles O53: a load writes the image as one block over the zeros of reset. -/
theorem loadCopiesTheImage : Obligations.LoadCopiesTheImage := by
  intro cfg bytes
  constructor
  · intro hlen
    refine ⟨_, load_eq_ok _ hlen, fun k b hk => ?_, fun a ha => ?_, unchanged_withMem _ _⟩
    · exact read_writeBlock_in _ _ _ _ _ rfl (image_fits hlen) hk
    · exact read_writeBlock_out _ _ _ _ ha
  · intro hlen t h
    obtain ⟨hle, -⟩ := load_eq_ok_iff.1 h
    exact absurd hle (Nat.not_le.2 hlen)

/-- Settles O54: the failed load leads to the phase `loadFailed`, in which neither a step nor a load is a move. -/
theorem oversizedImageIsNeverStarted : Obligations.OversizedImageIsNeverStarted := by
  intro q bytes hq hlen
  exact ⟨_, move_load_outOfSpace hq hlen, rfl, move_step_eq_none (by simp), fun _ => move_load_eq_none (by simp), rfl⟩

end Sys2Proof.Machine

/-! ## Encoding: the decoder, the encoder and the opcode table

The statements of spec/30_encoding.md. Each of the three is gone through once: the constructors of `Instr` for the decoder
after the encoder (`decode_encode`), the arms of the decoder for the encoder after it (`word_decode`), and the rows of the
table for the word that a row selects (`encode_build`). The table then agrees with the decoder through the encoder. -/

namespace Sys2Proof

section
variable {w : Word} {c f : Nibble} {nn : Byte} {nnn : Addr12} {r : OpcodeRow}

open Laws.RowMatch (tableRows rowNumber Statement)

/-! ### A field equals a constant: as numbers, and as the word put together -/

theorem catOf_eq_iff : catOf w = c ↔ w.toNat / 0x1000 = c.toNat := by
  rw [← BitVec.toNat_inj, toNat_catOf]
  omega

theorem nOf_eq_iff : nOf w = f ↔ w.toNat % 0x10 = f.toNat := by
  rw [← BitVec.toNat_inj, toNat_nOf]

theorem nnOf_eq_iff : nnOf w = nn ↔ w.toNat % 0x100 = nn.toNat := by
  rw [← BitVec.toNat_inj, toNat_nnOf]

theorem encA_eq (hc : catOf w = c) : encA c (nnnOf w) = w := by
  rw [← hc, encA_fields]

theorem encXN_eq (hc : catOf w = c) : encXN c (xOf w) (nnOf w) = w := by
  rw [← hc, encXN_fields]

theorem encXF_eq (hc : catOf w = c) (hnn : nnOf w = nn) : encXN c (xOf w) nn = w := by
  rw [← hc, ← hnn, encXN_fields]

theorem encXYN_eq (hc : catOf w = c) : encXY c (xOf w) (yOf w) (nOf w) = w := by
  rw [← hc, encXY_fields]

theorem encXY_eq (hc : catOf w = c) (hn : nOf w = f) : encXY c (xOf w) (yOf w) f = w := by
  rw [← hc, ← hn, encXY_fields]

/-! ### The decoder after the encoder -/

/-- The decoder finds in an encoded word the category and function that the encoder wrote, and reads the operands back
from the fields they were put in. -/
theorem decode_encode (i : Instr) : decode (encode i) = .instr i := by
  cases i with
  | cls | ret => rfl
  | jp | call | ldI | jpV0 => simp [encode, decode]
  | seImm | sneImm | ldImm | addImm | rnd | drw => simp [encode, decode]
  | seReg => simp [encode, decode, decodeCat5]
  | sneReg => simp [encode, decode, decodeCat9]
  | ldReg | orReg | andReg | xorReg | addReg | subReg | shr | subn | shl => simp [encode, decode, decodeCat8]
  | unimplEx9E | unimplExA1 => simp [encode, decode, decodeCatE]
  | addI | stRegs | ldRegs | unimplFx07 | unimplFx0A | unimplFx15 | unimplFx18 | unimplFx29 | unimplFx33 =>
    simp [encode, decode, decodeCatF]

/-! ### The encoder after the decoder -/

/-- The word that a reading of the decoder stands for. -/
def Decoded.word : Decoded → Word
  | .instr i => encode i
  | .unimplemented w => w

theorem word_decodeCat0 (w : Word) : (decodeCat0 w).word = w := by
  unfold decodeCat0
  split
  · next h => exact h.symm
  · split
    · next h => exact h.symm
    · rfl

theorem word_decodeCat5 (hc : catOf w = 0x5#4) : (decodeCat5 w).word = w := by
  unfold decodeCat5
  split
  · next hn => exact encXY_eq hc hn
  · rfl

theorem word_decodeCat8 (hc : catOf w = 0x8#4) : (decodeCat8 w).word = w := by
  unfold decodeCat8
  split
  case h_10 => rfl
  all_goals next hn => exact encXY_eq hc hn

theorem word_decodeCat9 (hc : catOf w = 0x9#4) : (decodeCat9 w).word = w := by
  unfold decodeCat9
  split
  · next hn => exact encXY_eq hc hn
  · rfl

theorem word_decodeCatE (hc : catOf w = 0xE#4) : (decodeCatE w).word = w := by
  unfold decodeCatE
  split
  case h_3 => rfl
  all_goals next hnn => exact encXF_eq hc hnn

theorem word_decodeCatF (hc : catOf w = 0xF#4) : (decodeCatF w).word = w := by
  unfold decodeCatF
  split
  case h_10 => rfl
  all_goals next hnn => exact encXF_eq hc hnn

theorem word_decode (w : Word) : (decode w).word = w := by
  unfold decode
  split
  case h_1 => exact word_decodeCat0 w
  case h_6 hc => exact word_decodeCat5 hc
  case h_9 hc => exact word_decodeCat8 hc
  case h_10 hc => exact word_decodeCat9 hc
  case h_15 hc => exact word_decodeCatE hc
  case h_14 hc => exact encXYN_eq hc
  case h_2 hc | h_3 hc | h_11 hc | h_12 hc => exact encA_eq hc
  case h_4 hc | h_5 hc | h_7 hc | h_8 hc | h_13 hc => exact encXN_eq hc
  case h_16 =>
    -- 0xF is the only nibble that no earlier arm takes
    refine word_decodeCatF ?_
    generalize catOf w = c at *
    revert c
    decide

theorem encode_of_decode {i : Instr} (h : decode w = .instr i) : encode i = w := by
  simpa [h, Decoded.word] using word_decode w

theorem eq_of_decode_unimplemented {v : Word} (h : decode w = .unimplemented v) : v = w := by
  simpa [h, Decoded.word] using word_decode w

/-- A word has the meaning `i` exactly when it is the word of `i`. -/
theorem decode_eq_instr_iff {i : Instr} : decode w = .instr i ↔ w = encode i :=
  ⟨fun h => (encode_of_decode h).symm, fun h => h ▸ decode_encode i⟩

/-! ### The rows of the opcode table (R84; 45_unimplemented.md R182) -/

/-- A row that selects a word fixes its category and function as the encoder writes them, and reads its operands from the
other fields: the word is put together again. The rows stand in the table's order, each as its format (R82) with the
fixed digits of its pattern. -/
theorem encode_build : ∀ r ∈ tableRows, ∀ w, r.selects w → encode (r.build w) = w := by
  have z (v w : Word) (h : w &&& 0xFFFF = v) : v = w := h.symm.trans (mask_all w)
  have a (c : Nibble) (w : Word) (h : w &&& 0xF000 = encA c 0) : encA c (nnnOf w) = w :=
    encA_eq ((mask_cat_iff w c).1 h)
  have xn (c : Nibble) (w : Word) (h : w &&& 0xF000 = encA c 0) : encXN c (xOf w) (nnOf w) = w :=
    encXN_eq ((mask_cat_iff w c).1 h)
  have xyn (c : Nibble) (w : Word) (h : w &&& 0xF000 = encA c 0) : encXY c (xOf w) (yOf w) (nOf w) = w :=
    encXYN_eq ((mask_cat_iff w c).1 h)
  have xy (c f : Nibble) (w : Word) (h : w &&& 0xF00F = encXY c 0 0 f) : encXY c (xOf w) (yOf w) f = w :=
    have ⟨hc, hn⟩ := (mask_cat_n_iff w c f).1 h
    encXY_eq hc hn
  have xf (c : Nibble) (nn : Byte) (w : Word) (h : w &&& 0xF0FF = encXN c 0 nn) : encXN c (xOf w) nn = w :=
    have ⟨hc, hnn⟩ := (mask_cat_nn_iff w c nn).1 h
    encXF_eq hc hnn
  simp only [tableRows, instructionRows, namedUnimplementedRows, List.cons_append, List.nil_append,
    List.forall_mem_cons]
  exact ⟨z 0x00E0, z 0x00EE, a 0x1, a 0x2, xn 0x3, xn 0x4, xy 0x5 0x0, xy 0x9 0x0, xn 0x6, xn 0x7,
    xy 0x8 0x0, xy 0x8 0x1, xy 0x8 0x2, xy 0x8 0x3, xy 0x8 0x4, xy 0x8 0x5, xy 0x8 0x6, xy 0x8 0x7, xy 0x8 0xE,
    a 0xA, a 0xB, xn 0xC, xyn 0xD, xf 0xF 0x1E, xf 0xF 0x55, xf 0xF 0x65,
    xf 0xE 0x9E, xf 0xE 0xA1, xf 0xF 0x07, xf 0xF 0x0A, xf 0xF 0x15, xf 0xF 0x18, xf 0xF 0x29, xf 0xF 0x33, nofun⟩

/-- Row `rowNumber i` selects the word of `i`, and reads `i` from it. -/
theorem rowMatch : ∀ i : Instr, Statement i
  | .cls => Laws.RowMatch.cls
  | .ret => Laws.RowMatch.ret
  | .jp nnn => Laws.RowMatch.jp nnn
  | .call nnn => Laws.RowMatch.call nnn
  | .seImm x nn => Laws.RowMatch.seImm x nn
  | .sneImm x nn => Laws.RowMatch.sneImm x nn
  | .seReg x y => Laws.RowMatch.seReg x y
  | .sneReg x y => Laws.RowMatch.sneReg x y
  | .ldImm x nn => Laws.RowMatch.ldImm x nn
  | .addImm x nn => Laws.RowMatch.addImm x nn
  | .ldReg x y => Laws.RowMatch.ldReg x y
  | .orReg x y => Laws.RowMatch.orReg x y
  | .andReg x y => Laws.RowMatch.andReg x y
  | .xorReg x y => Laws.RowMatch.xorReg x y
  | .addReg x y => Laws.RowMatch.addReg x y
  | .subReg x y => Laws.RowMatch.subReg x y
  | .shr x y => Laws.RowMatch.shr x y
  | .subn x y => Laws.RowMatch.subn x y
  | .shl x y => Laws.RowMatch.shl x y
  | .ldI nnn => Laws.RowMatch.ldI nnn
  | .jpV0 nnn => Laws.RowMatch.jpV0 nnn
  | .rnd x nn => Laws.RowMatch.rnd x nn
  | .drw x y n => Laws.RowMatch.drw x y n
  | .addI x => Laws.RowMatch.addI x
  | .stRegs x => Laws.RowMatch.stRegs x
  | .ldRegs x => Laws.RowMatch.ldRegs x
  | .unimplEx9E x => Laws.RowMatch.unimplEx9E x
  | .unimplExA1 x => Laws.RowMatch.unimplExA1 x
  | .unimplFx07 x => Laws.RowMatch.unimplFx07 x
  | .unimplFx0A x => Laws.RowMatch.unimplFx0A x
  | .unimplFx15 x => Laws.RowMatch.unimplFx15 x
  | .unimplFx18 x => Laws.RowMatch.unimplFx18 x
  | .unimplFx29 x => Laws.RowMatch.unimplFx29 x
  | .unimplFx33 x => Laws.RowMatch.unimplFx33 x

theorem exists_row_of_encode (i : Instr) : ∃ r ∈ tableRows, r.selects (encode i) ∧ r.build (encode i) = i := by
  obtain ⟨r, hr, hsel, hbuild⟩ := rowMatch i
  exact ⟨r, List.mem_of_getElem? hr, hsel, hbuild⟩

/-- Every row builds its own instruction, whose row it is. -/
theorem row_of_build : ∀ r ∈ tableRows, ∀ w, tableRows[rowNumber (r.build w)]? = some r := by
  simp [tableRows, instructionRows, namedUnimplementedRows, rowNumber]

/-- A word that a row selects is what the row reads from it: the row puts the word together again, and the decoder reads
that. -/
theorem decode_of_selects (hr : r ∈ tableRows) (h : r.selects w) : decode w = .instr (r.build w) :=
  decode_eq_instr_iff.2 (encode_build r hr w h).symm

/-- At most one row selects a word: both read one instruction from it, and an instruction has one row. -/
theorem row_eq_of_selects {r' : OpcodeRow} (hr : r ∈ tableRows) (hr' : r' ∈ tableRows) (h : r.selects w)
    (h' : r'.selects w) : r = r' := by
  have hbuild : r.build w = r'.build w := by
    simpa [decode_of_selects hr h] using decode_of_selects hr' h'
  have hrow := row_of_build r hr w
  rw [hbuild, row_of_build r' hr' w] at hrow
  exact (Option.some.inj hrow).symm

/-- A word is rejected, with the word itself, or some row selects it and is what it decodes to. -/
theorem decode_cases (w : Word) :
    decode w = .unimplemented w ∨ ∃ r ∈ tableRows, r.selects w ∧ decode w = .instr (r.build w) := by
  cases hd : decode w with
  | unimplemented v => exact .inl (by rw [eq_of_decode_unimplemented hd])
  | instr i =>
    obtain ⟨r, hr, hsel, hbuild⟩ := exists_row_of_encode i
    rw [encode_of_decode hd] at hsel hbuild
    exact .inr ⟨r, hr, hsel, by rw [hbuild]⟩

/-- The words that mean a jump to `nnn`, as numbers. -/
theorem decode_eq_jp_iff : decode w = .instr (.jp nnn) ↔ w.toNat = 0x1000 + nnn.toNat := by
  rw [decode_eq_instr_iff, ← BitVec.toNat_inj, encode, toNat_encA]
  rfl

/-! ### What the decoder does with a function that its category does not know (R85, R88) -/

theorem decodeCat0_unimplemented (hcls : w ≠ 0x00E0#16) (hret : w ≠ 0x00EE#16) : decodeCat0 w = .unimplemented w :=
  (if_neg hcls).trans (if_neg hret)

theorem decodeCat8_unimplemented (h : 8 ≤ (nOf w).toNat ∧ (nOf w).toNat ≤ 0xD ∨ (nOf w).toNat = 0xF) :
    decodeCat8 w = .unimplemented w := by
  unfold decodeCat8
  split
  case h_10 => rfl
  all_goals simp [*] at h

theorem decodeCatE_unimplemented (h9E : nnOf w ≠ 0x9E#8) (hA1 : nnOf w ≠ 0xA1#8) : decodeCatE w = .unimplemented w := by
  unfold decodeCatE
  split
  case h_3 => rfl
  all_goals contradiction

theorem decodeCatF_unimplemented
    (h : (nnOf w).toNat ∉ [0x1E, 0x55, 0x65, 0x07, 0x0A, 0x15, 0x18, 0x29, 0x33]) : decodeCatF w = .unimplemented w := by
  unfold decodeCatF
  split
  case h_10 => rfl
  all_goals simp [*] at h

end

end Sys2Proof

namespace Sys2Proof.Machine

open Sys2Proof

section
variable {s : State}

/-- The row at a place in the opcode table, in the form in which the statement about its instruction begins. -/
theorem selected_row (n : Nat) {r : OpcodeRow} (hr : Laws.RowMatch.tableRows[n]? = some r) :
    Selected r.mask r.pattern r.build :=
  fun _ => decode_of_selects (List.mem_of_getElem? hr)

/-! ### A jump to its own address (R93) -/

/-- A step at a jump to its own address only clears the outputs. -/
theorem step_selfJump (hs : s.status = .running) (hpc : s.pc.toNat ≤ 0xFFE) (hw : s.wordAtPc = 0x1000 + s.pc.toNat) :
    step s = .next s.clearOutputs := by
  have htarget : zextAddr (s.pc.setWidth 12) = s.pc := by
    apply BitVec.eq_of_toNat_eq
    simp only [zextAddr, BitVec.toNat_setWidth]
    omega
  have hdecode : decode (wordOfBytes (s.mem.read s.pc.toNat) (s.mem.read (s.pc.toNat + 1))) =
      .instr (.jp (s.pc.setWidth 12)) := by
    rw [decode_eq_jp_iff, toNat_wordOfBytes, BitVec.toNat_setWidth, Nat.mod_eq_of_lt (by omega)]
    exact hw
  rw [step_fetch_in hs (by omega), hdecode]
  show Host.Outcome.next ((s.clearOutputs.setPc (s.pc + 2)).setPc (zextAddr (s.pc.setWidth 12))) = _
  rw [htarget]
  rfl

/-- From a state that a step leaves alone but for the outputs, any number of steps does no more. -/
theorem stepsTo_clearOutputs (h : step s = .next s.clearOutputs) (h' : step s.clearOutputs = .next s.clearOutputs)
    (k : Nat) : StepsTo (k + 1) s s.clearOutputs := by
  induction k with
  | zero => exact .tail _ _ _ _ (.refl s) h
  | succ k ih => exact .tail _ _ _ _ ih h'

end

/-! ### The statements -/

/-- Settles O1, by cases on the instruction (`decode_encode`), and for the bytes by the word that they make up. -/
theorem decodeOfEncodeIsTheInstruction : Obligations.DecodeOfEncodeIsTheInstruction :=
  fun i => ⟨decode_encode i, by rw [decodeBytes_word, decode_encode]⟩

/-- Settles O2, by cases on the arms of the decoder (`word_decode`). -/
theorem encodeOfDecodeIsTheWord : Obligations.EncodeOfDecodeIsTheWord :=
  fun _ => ⟨fun _ => encode_of_decode, fun _ => eq_of_decode_unimplemented⟩

/-- Settles O3: the rows of the whole table, the named Unimplemented ones included, are the decoder. -/
theorem decoderAgreesWithOpcodeTable : Obligations.DecoderAgreesWithOpcodeTable := by
  have hmem {r : OpcodeRow} (hr : r ∈ instructionRows) : r ∈ Laws.RowMatch.tableRows := List.mem_append_left _ hr
  refine ⟨fun r hr w => decode_of_selects (hmem hr), fun r hr r' hr' w h h' => ?_, fun w hnone => ?_⟩
  · rw [row_eq_of_selects (hmem hr) (hmem hr') h h']
  · refine (decode_cases w).imp_right fun ⟨r, hr, hsel, hd⟩ => ⟨r, ?_, hsel, hd⟩
    exact (List.mem_append.1 hr).resolve_left fun hi => hnone r hi hsel

/-- Settles O5, class by class: the category names the decoder's arm, and the function is none that the arm knows. -/
theorem wordsOutsideTheTableAreRejected : Obligations.WordsOutsideTheTableAreRejected := by
  intro w h
  have hcat {c : Nibble} (hc : w.toNat / 0x1000 = c.toNat) : catOf w = c := catOf_eq_iff.2 hc
  rcases h with ⟨hc, hcls, hret⟩ | ⟨hc, hn⟩ | ⟨hc, hn⟩ | ⟨hc, hn⟩ | ⟨hc, h9E, hA1⟩ | ⟨hc, hnn⟩
  · simp [decode, hcat (c := 0x0#4) hc, decodeCat0_unimplemented hcls hret]
  · have h0 : nOf w ≠ 0x0#4 := mt nOf_eq_iff.1 hn
    simp [decode, hcat (c := 0x5#4) hc, decodeCat5, h0]
  · have h0 : nOf w ≠ 0x0#4 := mt nOf_eq_iff.1 hn
    simp [decode, hcat (c := 0x9#4) hc, decodeCat9, h0]
  · rw [← toNat_nOf] at hn
    simp [decode, hcat (c := 0x8#4) hc, decodeCat8_unimplemented hn]
  · simp [decode, hcat (c := 0xE#4) hc, decodeCatE_unimplemented (mt nnOf_eq_iff.1 h9E) (mt nnOf_eq_iff.1 hA1)]
  · rw [← toNat_nnOf] at hnn
    simp [decode, hcat (c := 0xF#4) hc, decodeCatF_unimplemented hnn]

/-- Settles O51: a step at the jump only clears the outputs, and the state it leads to stands at the same jump. -/
theorem jumpToItselfRunsSafelyForEver : Obligations.JumpToItselfRunsSafelyForEver := by
  intro s hs hpc hw k
  have hall := stepsTo_clearOutputs (step_selfJump hs hpc hw) (step_selfJump (s := s.clearOutputs) hs hpc hw)
  refine ⟨fun j _ t ht => ?_, hall k, fun t ht => stepsTo_functional ht (hall k)⟩
  cases j with
  | zero => rw [stepsTo_zero ht, hs]
  | succ j => rw [stepsTo_functional ht (hall j), clearOutputs_status, hs]

/-- Settles O4, from the fields as numbers. -/
theorem fieldsAreFixedBitRanges : Obligations.FieldsAreFixedBitRanges := by
  intro w
  rw [toNat_catOf, val_xOf, val_yOf, toNat_nOf, toNat_nnOf, toNat_nnnOf]
  omega

end Sys2Proof.Machine

/-! ## The step cycle: the fetch, the random input, the host's moves, and the end of a run

The statements of spec/40_step_cycle.md. What they need is said once: what is read from the random input
(`exec_ignores_draws`) and used up of it (`step_draws_in`, `step_draws_out`), when a load or a step is a move of the host
and what it does (`move_load_eq_some_iff`, `move_step_eq_some_iff`), and what the states of a run are before and after its
end (`reaches_of_le`, `reaches_clearOutputs`). -/

namespace Sys2Proof.Machine

open Sys2Proof

section
variable {i : Instr} {s t u : State}

/-! ### The frame of the step around `exec` -/

/-- Frames compose. -/
theorem Unchanged.trans {xs : List RegIdx} {ps : List Part} (h : Unchanged xs ps s t) (h' : Unchanged xs ps t u) :
    Unchanged xs ps s u := by
  obtain ⟨hr, hi, hpc, hstack, hmem, hdisp, hstatus, hdirty, hdiag, hdraws, hcfg⟩ := h
  obtain ⟨hr', hi', hpc', hstack', hmem', hdisp', hstatus', hdirty', hdiag', hdraws', hcfg'⟩ := h'
  exact ⟨fun r hn => (hr' r hn).trans (hr r hn), fun hn => (hi' hn).trans (hi hn), fun hn => (hpc' hn).trans (hpc hn),
    fun hn => (hstack' hn).trans (hstack hn), fun hn a => (hmem' hn a).trans (hmem hn a),
    fun hn cx cy => (hdisp' hn cx cy).trans (hdisp hn cx cy), fun hn => (hstatus' hn).trans (hstatus hn),
    fun hn => (hdirty' hn).trans (hdirty hn), fun hn => (hdiag' hn).trans (hdiag hn),
    fun hn => (hdraws' hn).trans (hdraws hn), hcfg'.trans hcfg⟩

theorem unchanged_clearOutputs (s : State) : Unchanged [] [.dirty, .diag] s s.clearOutputs := by
  simp [Unchanged, SameRegsBut, SameMem, SameDisp]

/-- The word that the fetch assembles, as the number that claims speak of. -/
theorem toNat_fetchedWord (s : State) :
    (wordOfBytes (s.mem.read s.pc.toNat) (s.mem.read (s.pc.toNat + 1))).toNat = s.wordAtPc :=
  toNat_wordOfBytes _ _

/-! ### The random input is read and used up by RND alone (40_step_cycle.md R106) -/

theorem draws_mem_writesParts : Part.draws ∈ writesParts i ↔ ∃ x nn, i = .rnd x nn := by
  cases i <;> simp [writesParts]

theorem skipIf_withDraws (c : Bool) (k : Nat) :
    ({ s with draws := k } : State).skipIf c = { s.skipIf c with draws := k } := by
  cases c <;> rfl

theorem loadRegs_withDraws (n k : Nat) :
    ({ s with draws := k } : State).loadRegs n = { s.loadRegs n with draws := k } := by
  induction n with
  | zero => rfl
  | succ n ih => rw [State.loadRegs, ih]; rfl

theorem exec_ignores_draws (s : State) (k : Nat) (hrnd : ∀ x nn, i ≠ .rnd x nn) :
    Completes i s (fun t => exec i { s with draws := k } = .next { t with draws := k }) := by
  cases i
  case rnd x nn => exact absurd rfl (hrnd x nn)
  case ret =>
    exact completes_ret (execRet_empty (s := { s with draws := k })) (execRet_pop (s := { s with draws := k }))
  case call nnn =>
    exact completes_call (execCall_full (s := { s with draws := k }) nnn) (execCall_push (s := { s with draws := k }) nnn)
  case seImm | sneImm | seReg | sneReg => exact ⟨_, rfl, congrArg Host.Outcome.next (skipIf_withDraws _ k)⟩
  case drw x y n =>
    refine completes_drw (fun h => execDrw_fits (s := { s with draws := k }) x y n h) (fun h => ?_)
    obtain ⟨h0, hlt⟩ := not_or.1 h
    exact execDrw_out (s := { s with draws := k }) x y n h0 (Nat.not_le.1 hlt)
  case stRegs x =>
    exact completes_stRegs (execStRegs_fits (s := { s with draws := k }) x)
      (execStRegs_out (s := { s with draws := k }) x)
  case ldRegs x =>
    exact completes_ldRegs
      (fun h => (execLdRegs_fits (s := { s with draws := k }) x h).trans (congrArg _ (loadRegs_withDraws _ k)))
      (execLdRegs_out (s := { s with draws := k }) x)
  all_goals exact ⟨_, rfl, rfl⟩

theorem exec_keeps_draws (hrnd : ∀ x nn, i ≠ .rnd x nn) (h : exec i s = .next t) : t.draws = s.draws := by
  obtain ⟨-, -, -, -, -, -, -, -, -, hdraws, -⟩ := (exec_frame i s).of_exec h
  exact hdraws (by simp [draws_mem_writesParts, hrnd])

/-- The words that mean RND are those of its row of the opcode table. -/
theorem decode_eq_rnd_iff {w : Word} : (∃ x nn, decode w = .instr (.rnd x nn)) ↔ w &&& 0xF000 = 0xC000 := by
  constructor
  · rintro ⟨x, nn, h⟩
    rw [decode_eq_instr_iff.1 h]
    exact Laws.RowMatch.selects_XN 0xC x nn
  · exact fun h => ⟨_, _, selected_row 21 rfl w h⟩

theorem execDecoded_draws {w : Word} (h : execDecoded (decode w) s = .next t) :
    t.draws = if w &&& 0xF000 = 0xC000 then s.draws + 1 else s.draws := by
  split
  · next hw =>
    obtain ⟨x, nn, hd⟩ := decode_eq_rnd_iff.2 hw
    rw [hd] at h
    injection h with h
    rw [← h]
  · next hw =>
    cases hd : decode w with
    | instr i =>
      rw [hd] at h
      exact exec_keeps_draws (fun x nn hi => hw (decode_eq_rnd_iff.1 ⟨x, nn, hi ▸ hd⟩)) h
    | unimplemented v =>
      rw [hd] at h
      injection h with h
      rw [← h, emitUnimplemented_draws]

theorem step_draws_out (h : step s = .next t) (hpc : 0xFFF ≤ s.pc.toNat) : t.draws = s.draws := by
  obtain ⟨-, ⟨-, rfl⟩ | ⟨hin, -⟩⟩ := step_cases h
  · rfl
  · omega

theorem step_draws_in (h : step s = .next t) (hpc : s.pc.toNat ≤ 0xFFE) {w : Word} (hw : w.toNat = s.wordAtPc) :
    t.draws = if w &&& 0xF000 = 0xC000 then s.draws + 1 else s.draws := by
  obtain rfl := BitVec.eq_of_toNat_eq ((toNat_fetchedWord s).trans hw.symm)
  obtain ⟨-, ⟨hout, -⟩ | ⟨-, hexec⟩⟩ := step_cases h
  · omega
  · exact execDecoded_draws (s := s.clearOutputs.setPc (s.pc + 2)) hexec

theorem draws_le_of_step (h : step s = .next t) : s.draws ≤ t.draws := by
  rcases Nat.lt_or_ge s.pc.toNat 0xFFF with hpc | hpc
  · rw [step_draws_in h (by omega) (toNat_fetchedWord s)]
    split <;> omega
  · exact (step_draws_out h hpc).ge

end

section
variable {q q' : Session} {r : HostReply} {s t : State} {bytes : List Byte}

/-! ### When the host has a move, and what it does (40_step_cycle.md R111) -/

theorem move_load_ok (hq : q.phase = .fresh) (h : q.state.load bytes = .ok t) :
    q.move (.load bytes) = some (.loadOk, { state := t, phase := .loaded }) := by
  simp [Session.move, hq, h]

/-- A load is a move in a fresh session alone: it leaves the loaded state, or the session as it was with no start
allowed. -/
theorem move_load_eq_some_iff : q.move (.load bytes) = some (r, q') ↔ q.phase = .fresh ∧
    ((∃ t, q.state.load bytes = .ok t ∧ r = .loadOk ∧ q' = { state := t, phase := .loaded }) ∨
     (maxImage < bytes.length ∧ r = .outOfSpace ∧ q' = { q with phase := .loadFailed })) := by
  by_cases hq : q.phase = .fresh
  · rcases Nat.lt_or_ge maxImage bytes.length with h | h
    · simp [move_load_outOfSpace hq h, load_outOfSpace _ h, hq, h, eq_comm]
    · have hload := load_eq_ok q.state h
      simp [move_load_ok hq hload, hload, hq, Nat.not_lt.2 h, eq_comm]
  · simp [move_load_eq_none hq, hq]

/-- A step is a move after a successful load alone, where the block can step. -/
theorem move_step_eq_some_iff : q.move .step = some (r, q') ↔ q.phase = .loaded ∧
    ∃ t, step q.state = .next t ∧ r = .stepped t.outcome ∧ q' = { q with state := t } := by
  by_cases hq : q.phase = .loaded
  · cases h : step q.state <;> simp [Session.move, hq, h, eq_comm]
  · simp [move_step_eq_none hq, hq]

theorem move_step_halted {c : Cause} (h : q.state.status = .halted c) : q.move .step = none := by
  rw [Option.eq_none_iff_forall_ne_some]
  rintro ⟨r, q'⟩ hm
  obtain ⟨-, t, ht, -⟩ := move_step_eq_some_iff.1 hm
  rw [step_halted c h] at ht
  cases ht

theorem outcome_halted {c : Cause} (h : s.status = .halted c) : s.outcome = .fatal c := by
  simp [State.outcome, h]

theorem outcome_running (h : s.status = .running) : s.outcome = .ok s.out.dirty s.out.diag := by
  simp [State.outcome, h]

theorem stop_ne_loaded (p : Phase) : p.stop ≠ .loaded := by
  cases p <;> simp [Phase.stop]

/-- Where no run of a loaded image is going on a stop changes nothing. -/
theorem stop_eq_self {p : Phase} (h : p ≠ .loaded) : p.stop = p := by
  cases p with
  | loaded => exact absurd rfl h
  | fresh | loadFailed | stopped => rfl

/-! ### Every reachable session meets the invariant -/

/-- The invariant holds of the parameters what R6 asks of them. -/
theorem State.Inv.cfg_wf (h : s.Inv) : s.cfg.wf = true := by
  cases hd : s.cfg.stackDepth with
  | none => simp [Config.wf, hd]
  | some d => simpa [Config.wf, hd] using (h.depth d hd).1

theorem State.Inv.hostReset (h : s.Inv) : s.hostReset.Inv :=
  (resetWith_inv h.cfg_wf).of_eq rfl rfl rfl rfl rfl rfl

/-- The invariant of a session: that of its state, and memory all zero where no image has been loaded. -/
structure Session.Inv (q : Session) : Prop where
  state : q.state.Inv
  mem : q.phase = .fresh ∨ q.phase = .loadFailed → q.state.mem = []

theorem Session.Inv.move {m : HostMove} (h : q.Inv) (hm : q.move m = some (r, q')) : q'.Inv := by
  cases m with
  | reset =>
    obtain ⟨rfl, rfl⟩ := hm
    exact ⟨h.state.hostReset, fun _ => rfl⟩
  | load bytes =>
    obtain ⟨hfresh, ⟨t, hl, -, rfl⟩ | ⟨-, -, rfl⟩⟩ := move_load_eq_some_iff.1 hm
    · exact ⟨(loadKeepsTheInvariant _ _ _ h.state hl).1, by simp⟩
    · exact ⟨h.state, fun _ => h.mem (.inl hfresh)⟩
  | step =>
    obtain ⟨hloaded, t, ht, -, rfl⟩ := move_step_eq_some_iff.1 hm
    exact ⟨step_keeps_inv h.state ht, by simp [hloaded]⟩
  | stop =>
    obtain ⟨rfl, rfl⟩ := hm
    refine ⟨h.state, fun hp => h.mem ?_⟩
    have hq : q.phase ≠ .loaded := fun hq => by simp [hq, Phase.stop] at hp
    simpa only [stop_eq_self hq] using hp

theorem Session.Reachable.inv (h : q.Reachable) : q.Inv := by
  induction h with
  | start cfg hwf => exact ⟨resetWith_inv hwf, fun _ => rfl⟩
  | move q q' m r _ hm ih => exact ih.move hm

end

section
variable {s t : State} {r : RunStart} {k : Nat} {e : RunEnd}

/-! ### Where a run ends (40_step_cycle.md R112) -/

/-- A word is a jump to an address below 0x1000 exactly when it is 0x1000 plus the address. -/
theorem decode_jp_to_iff {w a : Word} (ha : a.toNat ≤ 0xFFF) :
    (∃ nnn, decode w = .instr (.jp nnn) ∧ zextAddr nnn = a) ↔ w.toNat = 0x1000 + a.toNat := by
  simp only [decode_eq_jp_iff]
  constructor
  · rintro ⟨nnn, hw, rfl⟩
    rw [hw, toNat_zextAddr]
  · intro hw
    have hnnn : (a.setWidth 12).toNat = a.toNat := by
      rw [BitVec.toNat_setWidth, Nat.mod_eq_of_lt (by omega)]
    exact ⟨a.setWidth 12, by rw [hw, hnnn], BitVec.eq_of_toNat_eq (by rw [toNat_zextAddr, hnnn])⟩

theorem atSelfJump_iff : s.atSelfJump = true ↔ s.pc.toNat ≤ 0xFFE ∧ s.wordAtPc = 0x1000 + s.pc.toNat := by
  constructor
  · intro h
    obtain ⟨hpc, hjump⟩ := atSelfJump_decode h
    rw [decode_jp_to_iff (by omega), toNat_fetchedWord] at hjump
    exact ⟨by omega, hjump⟩
  · rintro ⟨hpc, hw⟩
    rw [← toNat_fetchedWord] at hw
    obtain ⟨nnn, hd, ha⟩ := (decode_jp_to_iff (by omega)).2 hw
    simp [State.atSelfJump, fetch_in (Nat.lt_succ_of_le hpc), hd, ha]

theorem runEnd_eq_selfJump_iff : s.runEnd = some .selfJump ↔
    s.status = .running ∧ s.pc.toNat ≤ 0xFFE ∧ s.wordAtPc = 0x1000 + s.pc.toNat := by
  rw [← atSelfJump_iff]
  cases hs : s.status with
  | running => simp [runEnd_running hs]
  | halted c => simp [runEnd_halted c hs]

theorem runEnd_eq_fatal_iff (c : Cause) : s.runEnd = some (.fatal c) ↔ s.status = .halted c := by
  cases hs : s.status with
  | running => simp [runEnd_running hs]
  | halted c' => simp [runEnd_halted c' hs]

theorem running_of_runEnd_eq_none (h : s.runEnd = none) : s.status = .running := by
  cases hs : s.status with
  | running => rfl
  | halted c => simp [runEnd_halted c hs] at h

/-! ### The states of a run -/

theorem reaches_zero_iff : r.reaches 0 s ↔ r.load = .ok s := by
  constructor
  · rintro ⟨s0, h0, hs⟩
    rwa [stepsTo_zero hs]
  · exact fun h => ⟨s, h, .refl s⟩

/-- A run has a state after every smaller number of steps. -/
theorem reaches_of_le {j : Nat} (h : r.reaches k s) (hj : j ≤ k) : ∃ t, r.reaches j t := by
  induction hj using Nat.decreasingInduction with
  | self => exact ⟨s, h⟩
  | of_succ j _ ih =>
    obtain ⟨t, ht⟩ := ih
    obtain ⟨u, hu, -⟩ := reaches_pred ht
    exact ⟨u, hu⟩

/-- Where a state of a run is an end there is a first such state. -/
theorem exists_endsAt (hs : r.reaches k s) (he : s.runEnd = some e) : ∃ j t e', j ≤ k ∧ r.endsAt j t e' := by
  classical
  have hex : ∃ j t, r.reaches j t ∧ t.runEnd ≠ none := ⟨k, s, hs, by simp [he]⟩
  obtain ⟨t, ht, hend⟩ := Nat.find_spec hex
  obtain ⟨e', he'⟩ := Option.ne_none_iff_exists'.1 hend
  refine ⟨_, t, e', Nat.find_min' hex ⟨s, hs, by simp [he]⟩, ht, he', fun j hj u hu => ?_⟩
  by_contra hne
  exact Nat.find_min hex hj ⟨u, hu, hne⟩

/-- No state of a run before its end is an end. -/
theorem le_of_endsAt {j : Nat} {e' : RunEnd} (hs : r.reaches k s) (he : s.runEnd = some e) (ht : r.endsAt j t e') :
    j ≤ k := by
  by_contra hlt
  obtain ⟨-, -, hfirst⟩ := ht
  simp [hfirst k (by omega) s hs] at he

theorem endsAt_unique {k' : Nat} {e' : RunEnd} (h : r.endsAt k s e) (h' : r.endsAt k' t e') :
    k = k' ∧ s = t ∧ e = e' := by
  obtain ⟨hs, he, -⟩ := id h
  obtain ⟨ht, he', -⟩ := id h'
  obtain rfl : k = k' := Nat.le_antisymm (le_of_endsAt ht he' h) (le_of_endsAt hs he h')
  obtain rfl := reaches_functional hs ht
  exact ⟨rfl, rfl, Option.some.inj (he.symm.trans he')⟩

/-- A run has no state after a halted one. -/
theorem not_reaches_after_halted {c : Cause} {j : Nat} (hs : r.reaches k s) (hc : s.status = .halted c) (hj : k < j) :
    ¬ r.reaches j t := by
  intro ht
  obtain ⟨u, hu⟩ := reaches_of_le ht hj
  obtain ⟨s', hs', hstep⟩ := reaches_pred hu
  rw [reaches_functional hs' hs, step_halted c hc] at hstep
  cases hstep

/-- After a jump to itself a run stays where it is, with the outputs cleared. -/
theorem reaches_clearOutputs (hs : r.reaches k s) (he : s.runEnd = some .selfJump) (j : Nat) :
    r.reaches (k + 1 + j) s.clearOutputs := by
  obtain ⟨hrun, hpc, hw⟩ := runEnd_eq_selfJump_iff.1 he
  induction j with
  | zero => exact reaches_succ hs (step_selfJump hrun hpc hw)
  | succ j ih => exact reaches_succ ih (step_selfJump (s := s.clearOutputs) hrun hpc hw)

end

/-! ### The statements -/

/-- Settles O58: the end of a run is its first state that is an end; no step leaves a halted state, and a step at a jump to
itself only clears the outputs. -/
theorem theEndOfARunIsUniqueAndFinal : Obligations.TheEndOfARunIsUniqueAndFinal := by
  refine ⟨fun s => ⟨runEnd_eq_selfJump_iff, runEnd_eq_fatal_iff⟩, fun r => ⟨fun s => reaches_zero_iff, ?_,
    fun k s e => exists_endsAt, fun k s e k' s' e' => endsAt_unique, ?_, ?_⟩⟩
  · intro k s hs hnone
    obtain ⟨t, ht⟩ := step_answers_next (running_of_runEnd_eq_none hnone)
    exact ⟨t, reaches_succ hs ht⟩
  · rintro k s c ⟨hs, he, -⟩
    have hc := (runEnd_eq_fatal_iff c).1 he
    exact ⟨hc, fun j t => not_reaches_after_halted hs hc (by omega)⟩
  · rintro k s ⟨hs, he, -⟩
    have hall := reaches_clearOutputs hs he
    obtain ⟨hrun, -⟩ := runEnd_eq_selfJump_iff.1 he
    exact ⟨hrun, fun j => ⟨hall j, fun t ht => reaches_functional ht (hall j)⟩⟩

/-- Settles O50, by induction on the host's moves: every move keeps the invariant of the session. -/
theorem reachableSessionsMeetTheInvariant : Obligations.ReachableSessionsMeetTheInvariant := by
  intro q hq
  refine ⟨hq.inv.state, fun hp a => ?_⟩
  rw [hq.inv.mem hp]
  rfl

/-- Settles O27, from the frame of every instruction and the fact that only RND reads the count of draws. -/
theorem onlyRndDependsOnTheRandomInput : Obligations.OnlyRndDependsOnTheRandomInput :=
  fun _ s _ k hrnd h => ⟨exec_keeps_draws hrnd h, (exec_ignores_draws s k hrnd).of_exec h⟩

/-- Settles O55, move by move. -/
theorem hostMovesAreAllowedAsTabulated : Obligations.HostMovesAreAllowedAsTabulated := by
  intro q
  refine ⟨rfl, ⟨_, rfl, rfl, move_step_eq_none (stop_ne_loaded _), fun h => ?_⟩, fun bytes => ?_, ?_,
    fun bytes => move_load_outOfSpace, ?_, ?_⟩
  · rw [stop_eq_self h]
  · simp only [Option.isSome_iff_exists, Prod.exists, move_load_eq_some_iff]
    refine ⟨fun ⟨_, _, hq, _⟩ => hq, fun hq => ?_⟩
    rcases Nat.lt_or_ge maxImage bytes.length with h | h
    · exact ⟨_, _, hq, .inr ⟨h, rfl, rfl⟩⟩
    · exact ⟨_, _, hq, .inl ⟨_, load_eq_ok _ h, rfl, rfl⟩⟩
  · intro bytes hq hlen
    exact ⟨_, load_eq_ok _ hlen, move_load_ok hq (load_eq_ok _ hlen)⟩
  · simp only [Option.isSome_iff_exists, Prod.exists, move_step_eq_some_iff]
    constructor
    · rintro ⟨_, _, hq, t, ht, -⟩
      exact ⟨hq, (step_cases ht).1⟩
    · rintro ⟨hq, hrun⟩
      obtain ⟨t, ht⟩ := step_answers_next hrun
      exact ⟨_, _, hq, t, ht, rfl, rfl⟩
  · intro r q' hm
    obtain ⟨hq, t, ht, rfl, rfl⟩ := move_step_eq_some_iff.1 hm
    exact ⟨ht, hq, fun c hc => by rw [outcome_halted hc], fun hrun => by rw [outcome_running hrun]⟩

/-- Settles O56, move by move: only a step touches the count of draws. -/
theorem everyDrawIsFresh : Obligations.EveryDrawIsFresh := by
  intro q q' m r hm
  cases m with
  | reset | stop =>
    obtain ⟨rfl, rfl⟩ := hm
    exact ⟨le_rfl, fun _ => rfl, nofun, nofun⟩
  | load bytes =>
    have hkept : q'.state.draws = q.state.draws := by
      obtain ⟨-, ⟨t, hl, -, rfl⟩ | ⟨-, -, rfl⟩⟩ := move_load_eq_some_iff.1 hm
      · obtain ⟨-, rfl⟩ := load_eq_ok_iff.1 hl
        rfl
      · rfl
    exact ⟨hkept.ge, fun _ => hkept, nofun, nofun⟩
  | step =>
    obtain ⟨-, t, ht, -, rfl⟩ := move_step_eq_some_iff.1 hm
    exact ⟨draws_le_of_step ht, fun h => absurd rfl h, fun _ => step_draws_out ht, fun _ hpc _ => step_draws_in ht hpc⟩

/-- Settles O57, move by move, a step by the status that it leaves. -/
theorem aRunGoesOnUntilAFatalStepOrTheHostEndsIt : Obligations.ARunGoesOnUntilAFatalStepOrTheHostEndsIt := by
  constructor
  · intro q hq hrun
    obtain ⟨t, ht⟩ := step_answers_next hrun
    refine ⟨⟨_, _, move_step_eq_some_iff.2 ⟨hq, t, ht, rfl, rfl⟩⟩, fun m r q' hm => ?_⟩
    cases m with
    | reset =>
      obtain ⟨rfl, rfl⟩ := hm
      exact .inr (.inr (.inr ⟨rfl, rfl⟩))
    | load bytes =>
      rw [move_load_eq_none (by simp [hq])] at hm
      cases hm
    | step =>
      obtain ⟨-, u, -, rfl, rfl⟩ := move_step_eq_some_iff.1 hm
      cases hu : u.status with
      | running => exact .inl ⟨hq, rfl⟩
      | halted c => exact .inr (.inl ⟨rfl, c, by rw [outcome_halted hu], hq, rfl⟩)
    | stop =>
      obtain ⟨rfl, rfl⟩ := hm
      exact .inr (.inr (.inl ⟨rfl, by simp [hq, Phase.stop], rfl⟩))
  · rintro q (⟨hq, c, hc⟩ | hq)
    · exact ⟨move_step_halted hc, fun _ => move_load_eq_none (by simp [hq])⟩
    · exact ⟨move_step_eq_none (by simp [hq]), fun _ => move_load_eq_none (by simp [hq])⟩

/-- Settles O7, from the step whose fetch succeeds: the two bytes are the word fetched. -/
theorem stepExecutesTheDecodedInstruction : Obligations.StepExecutesTheDecodedInstruction := by
  intro s i hs hpc hd
  have hin : s.pc.toNat < 0xFFF := by omega
  injection hd with hd
  exact ⟨by rw [step_fetch_in hs hin, hd, execDecoded], postFetch_pc hin⟩

/-- Settles O9: the failed fetch clears the outputs and takes the fatal condition, and neither changes anything else. -/
theorem fetchOutOfBoundsHaltsTheCore : Obligations.FetchOutOfBoundsHaltsTheCore := by
  intro s hs hpc
  refine ⟨_, step_fetch_out hs hpc, rfl, rfl, ?_⟩
  exact ((unchanged_clearOutputs s).mono (List.Subset.refl _) (by simp)).trans (unchanged_halt_of_mem _ _ (by simp))

/-- Settles O10, from the two cases of the fetch. -/
theorem fetchReadsTheBigEndianWord : Obligations.FetchReadsTheBigEndianWord := by
  refine fun s => ⟨fun hpc => ?_, fetch_out⟩
  have hin : s.pc.toNat < 0xFFF := by omega
  exact ⟨_, _, fetch_in hin, toNat_fetchedWord s, postFetch_pc hin, unchanged_setPc s _⟩

end Sys2Proof.Machine

/-! ## Control flow: jumps, skips, calls and returns

The statements of spec/41_control_flow.md. A word's row of the opcode table says what it decodes to (`selected_row`); what
each instruction answers is a lemma about its meaning (`execRet_pop`, `execCall_push`, `completes_skipIf`). The CALL to its
own address is taken one step at a time (`step_selfCall_room`, `step_selfCall_full`), and then by induction on the room
left. -/

namespace Sys2Proof.Machine

open Sys2Proof

section
variable {i : Instr} {s : State} {w a : Word}

/-- The step after a PC past the last fetch address was reached is fatal at the fetch (40_step_cycle.md R102). -/
theorem step_fetch_out_at (hs : s.status = .running) (hpc : s.pc = a) (ha : 0xFFF ≤ a.toNat) :
    step s = .next (s.clearOutputs.halt (.outOfBounds .fetch a)) := by
  subst hpc
  exact step_fetch_out hs ha

/-! ### Skips -/

/-- An instruction that skips under a condition adds 2 to PC exactly then, and changes nothing else. -/
theorem completes_skipIf {c : Bool} (h : exec i s = .next (s.skipIf c)) :
    Completes i s (fun t => t.pc = (if c then s.pc + 2 else s.pc) ∧ Unchanged [] [.pc] s t) :=
  ⟨_, h, skipIf_pc s c, unchanged_skipIf s c⟩

/-- The instruction is a skip whose condition holds at the state (41_control_flow.md R123 to R126). -/
def SkipTaken (i : Instr) (s : State) : Prop :=
  (∃ x nn, i = .seImm x nn ∧ s.getV x = nn) ∨ (∃ x nn, i = .sneImm x nn ∧ s.getV x ≠ nn) ∨
    (∃ x y, i = .seReg x y ∧ s.getV x = s.getV y) ∨ (∃ x y, i = .sneReg x y ∧ s.getV x ≠ s.getV y)

theorem exec_eq_skip (h : SkipTaken i s) : exec i s = .next s.skip := by
  have hskip {p : Prop} [Decidable p] (hp : p) : s.skipIf (decide p) = s.skip := by simp [State.skipIf, hp]
  obtain ⟨x, nn, rfl, h⟩ | ⟨x, nn, rfl, h⟩ | ⟨x, y, rfl, h⟩ | ⟨x, y, rfl, h⟩ := h
  all_goals exact congrArg Host.Outcome.next (hskip h)

/-! ### A call to its own address -/

/-- An address below 0x1000 is the zero extension of its low 12 bits. -/
theorem zextAddr_setWidth (ha : a.toNat ≤ 0xFFF) : zextAddr (a.setWidth 12) = a := by
  apply BitVec.eq_of_toNat_eq
  rw [toNat_zextAddr, BitVec.toNat_setWidth]
  omega

/-- The word of a call to an address below 0x1000. -/
theorem decode_call_to (ha : a.toNat ≤ 0xFFF) (hw : w.toNat = 0x2000 + a.toNat) :
    decode w = .instr (.call (a.setWidth 12)) := by
  rw [decode_eq_instr_iff, ← BitVec.toNat_inj, encode, toNat_encA, BitVec.toNat_setWidth, hw,
    Nat.mod_eq_of_lt (by omega)]
  rfl

section
variable (hs : s.status = .running) (hpc : s.pc.toNat ≤ 0xFFE) (hw : s.wordAtPc = 0x2000 + s.pc.toNat)
include hs hpc hw

/-- A step at a call to its own address runs CALL at the post-fetch state. -/
theorem step_selfCall :
    step s = execCall (s.pc.setWidth 12) (s.clearOutputs.setPc (s.pc + 2)) := by
  rw [step_fetch_in hs (by omega), decode_call_to (by omega) ((toNat_fetchedWord s).trans hw)]
  rfl

/-- With room on the stack, it pushes the post-fetch PC and stays where it is. -/
theorem step_selfCall_room (hroom : s.cfg.stackDepth ≠ some s.stack.length) :
    step s = .next (s.clearOutputs.push (s.pc + 2)) := by
  rw [step_selfCall hs hpc hw, execCall_push (s := s.clearOutputs.setPc (s.pc + 2)) _ hroom,
    zextAddr_setWidth (by omega)]
  rfl

/-- At the bound, it halts and pushes nothing. -/
theorem step_selfCall_full (hfull : s.cfg.stackDepth = some s.stack.length) :
    step s = .next ((s.clearOutputs.setPc (s.pc + 2)).halt .stackOverflow) := by
  rw [step_selfCall hs hpc hw, execCall_full (s := s.clearOutputs.setPc (s.pc + 2)) _ hfull]

end

/-- With room for `k` more entries, a call to its own address pushes `k` and then overflows. -/
theorem stepsTo_selfCall (k : Nat) (hs : s.status = .running) (hpc : s.pc.toNat ≤ 0xFFE)
    (hw : s.wordAtPc = 0x2000 + s.pc.toNat) (hd : s.cfg.stackDepth = some (s.stack.length + k)) :
    ∃ t, StepsTo (k + 1) s t ∧ t.status = .halted .stackOverflow ∧
      t.stack = List.replicate k (s.pc + 2) ++ s.stack := by
  induction k generalizing s with
  | zero => exact ⟨_, stepsTo_head (step_selfCall_full hs hpc hw hd) (.refl _), rfl, rfl⟩
  | succ k ih =>
    have hstep := step_selfCall_room hs hpc hw (by simp [hd])
    have hd' : s.cfg.stackDepth = some (((s.pc + 2) :: s.stack).length + k) := by
      rw [hd, List.length_cons, Nat.add_right_comm, Nat.add_assoc]
    obtain ⟨t, ht, hhalt, hstack⟩ := ih (s := s.clearOutputs.push (s.pc + 2)) hs hpc hw hd'
    refine ⟨t, stepsTo_head hstep ht, hhalt, ?_⟩
    rw [hstack, List.replicate_succ', List.append_assoc]
    rfl

end

/-! ### The statements -/

/-- Settles O12, by the two cases of the stack; a popped 0x1000 is no fetch address. -/
theorem retPopsTheReturnAddress : Obligations.RetPopsTheReturnAddress :=
  ⟨selected_row 1 rfl,
    fun _ a rest h => ⟨_, execRet_pop a rest h, rfl, rfl, unchanged_pop a rest⟩,
    fun s h => ⟨_, execRet_empty h, rfl, unchanged_halt s _⟩,
    fun s rest hs h => ⟨_, execRet_pop 0x1000 rest h,
      step_fetch_out_at (s := { s with pc := 0x1000, stack := rest }) hs rfl (by decide)⟩⟩

/-- Settles O13: PC is the target's zero extension, and the jump to itself is `step_selfJump`. -/
theorem jpSetsPcToTheTarget : Obligations.JpSetsPcToTheTarget :=
  ⟨selected_row 2 rfl,
    fun nnn s => ⟨_, rfl, toNat_zextAddr nnn, unchanged_setPc s _⟩,
    fun _ => step_selfJump,
    fun s hs => ⟨_, rfl, step_fetch_out_at (s := s.setPc 0xFFF) hs rfl (by decide)⟩⟩

/-- Settles O14, by the two cases of the bound; the call to itself is by induction on the room left. -/
theorem callPushesThePostFetchPc : Obligations.CallPushesThePostFetchPc :=
  ⟨selected_row 3 rfl,
    fun nnn _ h => ⟨_, execCall_push nnn h, rfl, toNat_zextAddr nnn, unchanged_push_setPc _ _⟩,
    fun nnn s h => ⟨_, execCall_full nnn h, rfl, unchanged_halt s _⟩,
    fun _ => stepsTo_selfCall⟩

/-- Settles O15: each of the four is a skip under its condition, and a skip at 0x1000 leads past the last fetch
address. -/
theorem skipsAddTwoUnderTheirCondition : Obligations.SkipsAddTwoUnderTheirCondition := by
  refine ⟨selected_row 4 rfl, selected_row 5 rfl, selected_row 6 rfl, selected_row 7 rfl, fun x nn s => ⟨?_, ?_⟩,
    fun x y s => ⟨?_, ?_⟩, fun w hcat hn => ?_, fun i s hs hpc htaken => ?_⟩
  · simpa using completes_skipIf (i := .seImm x nn) (s := s) rfl
  · simpa using completes_skipIf (i := .sneImm x nn) (s := s) rfl
  · simpa using completes_skipIf (i := .seReg x y) (s := s) rfl
  · simpa using completes_skipIf (i := .sneReg x y) (s := s) rfl
  · refine wordsOutsideTheTableAreRejected w ?_
    rcases hcat with hcat | hcat
    · exact .inr (.inl ⟨hcat, hn⟩)
    · exact .inr (.inr (.inl ⟨hcat, hn⟩))
  · have hskip : s.skip.pc = 0x1002 := by rw [skip_pc, hpc]; rfl
    exact ⟨_, exec_eq_skip htaken, hskip, step_fetch_out_at (s := s.skip) hs hskip (by decide)⟩

/-- Settles O16, from the masked sum as a number. -/
theorem jpV0MasksTheSum : Obligations.JpV0MasksTheSum :=
  ⟨selected_row 20 rfl, fun _ s => ⟨_, rfl, toNat_maskAddr _, unchanged_setPc s _⟩⟩

/-- Settles O17: RET pops what CALL pushed. -/
theorem callThenRetReturnsAfterTheCall : Obligations.CallThenRetReturnsAfterTheCall :=
  fun nnn _ hroom => ⟨_, execCall_push nnn hroom, fun _ hstack => ⟨_, execRet_pop _ _ hstack, rfl, rfl⟩⟩

end Sys2Proof.Machine

/-! ## Register loads, arithmetic, logic, shifts and random

The statements of spec/42_register_alu.md. An instruction of this family writes one register, or a result and then the flag:
one rule for each (`completes_setV`, `completes_setResultAndFlag`). What it writes is a lemma about the arithmetic of results
or about a flag's value. -/

namespace Sys2Proof.Machine

open Sys2Proof

section
variable {i : Instr} {s : State} {x : RegIdx} {b f : Byte}

/-! ### The flags and the shifts, as numbers (42_register_alu.md R148, R150) -/

theorem toNat_lowBitFlag (t : Byte) : (lowBitFlag t).toNat = t.toNat % 2 :=
  (BitVec.toNat_and t 1).trans (Nat.and_one_is_mod _)

/-- Bit 7 kept where it stands is 0x80 exactly from 0x80 on. -/
theorem highBitFlag_eq (t : Byte) : highBitFlag t = if t.toNat ≥ 0x80 then 0x80 else 0x00 := by
  have hbit : t.getLsbD 7 = decide (t.toNat ≥ 0x80) := BitVec.msb_eq_decide t
  have hand : highBitFlag t = if t.getLsbD 7 then 0x80 else 0x00 := BitVec.and_twoPow t 7
  simpa only [hbit, decide_eq_true_eq] using hand

theorem toNat_shiftRight1 (t : Byte) : (shiftRight1 t).toNat = t.toNat / 2 := by
  rw [shiftRight1, BitVec.toNat_ushiftRight, Nat.shiftRight_one]

theorem toNat_shiftLeft1 (t : Byte) : (shiftLeft1 t).toNat = 2 * t.toNat % 256 := by
  rw [shiftLeft1, BitVec.toNat_shiftLeft, Nat.shiftLeft_eq, Nat.mul_comm]

/-! ### Writing one register -/

/-- Writing back what a register holds changes nothing. -/
theorem setV_getV_self (s : State) (x : RegIdx) : s.setV x (s.getV x) = s := by
  simp [State.setV, State.getV]

/-- An instruction that writes one register leaves the value there, and changes nothing else. -/
theorem completes_setV (h : exec i s = .next (s.setV x b)) :
    Completes i s (fun t => t.getV x = b ∧ Unchanged [x] [] s t) :=
  ⟨_, h, getV_setV_self s x b, unchanged_setV s x b []⟩

theorem getV_rndWith (rand : Byte) (x : RegIdx) (nn : Byte) (s : State) : (rndWith rand x nn s).getV x = rand &&& nn :=
  getV_setV_self s x _

/-! ### Writing a result and then the flag (10_state.md R26) -/

/-- What an instruction completes with may be weakened. -/
theorem Completes.imp {P Q : State → Prop} (h : Completes i s P) (hPQ : ∀ t, P t → Q t) : Completes i s Q := by
  obtain ⟨t, ht, hp⟩ := h
  exact ⟨t, ht, hPQ t hp⟩

/-- An instruction that writes a result and then the flag leaves the flag in VF, the result in any other destination, and
changes nothing else. -/
theorem completes_setResultAndFlag (h : exec i s = .next (s.setResultAndFlag x b f)) :
    Completes i s (fun t => t.getV 15 = f ∧ (x ≠ 15 → t.getV x = b) ∧ Unchanged [x, 15] [] s t) := by
  refine ⟨_, h, ?_, fun hx => ?_, unchanged_setResultAndFlag s x b f []⟩
  · exact (getV_setResultAndFlag s x 15 b f).trans (if_pos rfl)
  · exact (getV_setResultAndFlag s x x b f).trans ((if_neg hx).trans (if_pos rfl))

/-- A subtraction, whichever operand is the minuend (42_register_alu.md R147, R149). -/
theorem completes_difference {a c : Byte}
    (h : exec i s = .next (s.setResultAndFlag x (subWrap a c) (greaterFlag a c))) :
    Completes i s (fun t => t.getV 15 = (if a.toNat > c.toNat then 1 else 0) ∧
      (x ≠ 15 → ((t.getV x).toNat : Int) = ((a.toNat : Int) - c.toNat) % 256) ∧ Unchanged [x, 15] [] s t) :=
  (completes_setResultAndFlag h).imp fun _ ⟨hflag, hresult, hframe⟩ =>
    ⟨hflag, fun hx => by rw [hresult hx, toNat_subWrap], hframe⟩

end

/-! ### The statements -/

/-- Settles O18: LD_IMM writes one register. -/
theorem ldImmLoadsTheImmediate : Obligations.LdImmLoadsTheImmediate :=
  ⟨selected_row 8 rfl, fun _ _ _ => completes_setV rfl⟩

/-- Settles O19, from the wrapped sum as a number; LD_IMM leaves its immediate where ADD_IMM reads its operand. -/
theorem addImmWrapsWithoutFlag : Obligations.AddImmWrapsWithoutFlag := by
  have hadd (x : RegIdx) (nn : Byte) (s : State) : Completes (.addImm x nn) s (fun t =>
      (t.getV x).toNat = ((s.getV x).toNat + nn.toNat) % 256 ∧ Unchanged [x] [] s t) :=
    (completes_setV rfl).imp fun _ ⟨hsum, hframe⟩ => ⟨by rw [hsum, toNat_addWrap], hframe⟩
  refine ⟨selected_row 9 rfl, hadd, fun x nn1 nn2 s => ?_⟩
  refine (completes_setV rfl).imp fun t ⟨himm, hframe⟩ => (hadd x nn2 t).imp fun u ⟨hsum, hframe'⟩ => ?_
  exact ⟨by rw [hsum, himm], hframe.trans hframe'⟩

/-- Settles O20: LD_REG writes one register, and with x = y writes back what it holds. -/
theorem ldRegCopiesTheSource : Obligations.LdRegCopiesTheSource :=
  ⟨selected_row 10 rfl, fun _ _ _ => completes_setV rfl,
    fun x s => ⟨s, congrArg Host.Outcome.next (setV_getV_self s x), unchanged_refl s _ _⟩⟩

/-- Settles O21: each of the three writes one register, and acts on the bits as its operation does. -/
theorem logicLeavesTheFlagAlone : Obligations.LogicLeavesTheFlagAlone := by
  refine ⟨selected_row 11 rfl, selected_row 12 rfl, selected_row 13 rfl, fun x y s => ⟨?_, ?_, ?_⟩⟩
  · exact (completes_setV rfl).imp fun _ ⟨hor, hframe⟩ => ⟨hframe, fun k => by rw [hor, BitVec.getLsbD_or]⟩
  · exact (completes_setV rfl).imp fun _ ⟨hand, hframe⟩ => ⟨hframe, fun k => by rw [hand, BitVec.getLsbD_and]⟩
  · exact (completes_setV rfl).imp fun _ ⟨hxor, hframe⟩ => ⟨hframe, fun k => by rw [hxor, BitVec.getLsbD_xor]⟩

/-- Settles O22, from the wrapped sum as a number; the carry flag is the statement's own. -/
theorem addRegWritesSumThenCarry : Obligations.AddRegWritesSumThenCarry :=
  ⟨selected_row 14 rfl, fun _ _ _ => (completes_setResultAndFlag rfl).imp fun _ ⟨hflag, hsum, hframe⟩ =>
    ⟨hflag, fun hx => by rw [hsum hx, toNat_addWrap], hframe⟩⟩

/-- Settles O23: the two are one subtraction with the operands exchanged. -/
theorem subAndSubnCompareStrictly : Obligations.SubAndSubnCompareStrictly :=
  ⟨selected_row 15 rfl, selected_row 17 rfl, fun _ _ _ => ⟨completes_difference rfl, completes_difference rfl⟩⟩

/-- Settles O24, from the low bit and the shift as numbers. -/
theorem shrShiftsTheSourceRegister : Obligations.ShrShiftsTheSourceRegister :=
  ⟨selected_row 16 rfl, fun _ _ _ => (completes_setResultAndFlag rfl).imp fun _ ⟨hflag, hshift, hframe⟩ =>
    ⟨by rw [hflag, toNat_lowBitFlag], fun hx => by rw [hshift hx, toNat_shiftRight1], hframe⟩⟩

/-- Settles O25, from the high bit where it stands and the shift as a number. -/
theorem shlFlagIsTheRawHighBit : Obligations.ShlFlagIsTheRawHighBit :=
  ⟨selected_row 18 rfl, fun _ _ _ => (completes_setResultAndFlag rfl).imp fun _ ⟨hflag, hshift, hframe⟩ =>
    ⟨by rw [hflag, highBitFlag_eq], fun hx => by rw [hshift hx, toNat_shiftLeft1], hframe⟩⟩

/-- Settles O26: whatever byte is drawn, RND writes one register with it masked, and then counts the draw. -/
theorem rndMasksTheDrawnByte : Obligations.RndMasksTheDrawnByte := by
  refine ⟨selected_row 21 rfl, fun x nn s => ?_, fun rand x nn s => ⟨getV_rndWith rand x nn s, unchanged_setV s x _ []⟩⟩
  have hread := getV_rndWith (Config.randomByte s.draws) x nn s
  refine ⟨_, rfl, hread, fun k hk => ?_, rfl, unchanged_rndWith _ x nn _⟩
  calc ((rndWith (Config.randomByte s.draws) x nn s).getV x).getLsbD k
    _ = ((Config.randomByte s.draws).getLsbD k && nn.getLsbD k) := by rw [hread, BitVec.getLsbD_and]
    _ = false := by rw [hk, Bool.and_false]

end Sys2Proof.Machine

/-! ## The index register and the register block

The statements of spec/43_index_and_memory.md. The block of V0 to V[x] stands at I upward: said once are what a store
leaves in it (`read_storeRegs_le`) and outside it (`read_storeRegs_out`), and what a load reads from it
(`getV_loadRegs_le`). -/

namespace Sys2Proof.Machine

open Sys2Proof

section
variable {s : State} {x k : RegIdx}

/-- ST_REGS x in range: the byte at I + k is V[k], for k from 0 to x (43_index_and_memory.md R162). -/
theorem read_storeRegs_le (hwf : s.mem.wf = true) (hfit : s.i.toNat + x.val ≤ 0xFFF) (hk : k ≤ x) :
    (s.storeRegs (x.val + 1)).mem.read (s.i.toNat + k.val) = s.getV k :=
  read_storeRegs hwf (by omega) (by simp only [memSize]; omega) (Nat.lt_succ_of_le hk)

/-- ST_REGS x leaves every address outside the block as it was. -/
theorem read_storeRegs_out {a : Nat} (ha : a < s.i.toNat ∨ s.i.toNat + x.val < a) :
    (s.storeRegs (x.val + 1)).mem.read a = s.mem.read a := by
  have hlen : (s.regBlock (x.val + 1)).length = x.val + 1 := regBlock_length s _ (by omega)
  exact read_writeBlock_out _ _ _ _ (by omega)

/-- LD_REGS x: V[k] is the byte at I + k, for k from 0 to x (43_index_and_memory.md R163). -/
theorem getV_loadRegs_le (hk : k ≤ x) : (s.loadRegs (x.val + 1)).getV k = s.mem.read (s.i.toNat + k.val) := by
  rw [getV_loadRegs s _ (by omega), if_pos (Nat.lt_succ_of_le hk)]

end

/-! ### The statements -/

/-- Settles O28: I is the zero extension of a 12-bit address. -/
theorem ldILoadsTheAddress : Obligations.LdILoadsTheAddress :=
  ⟨selected_row 19 rfl, fun nnn s => ⟨_, rfl, toNat_zextAddr nnn, zextAddr_le nnn, unchanged_setI s _⟩⟩

/-- Settles O29, from the masked sum as a number. -/
theorem addIMasksTheSum : Obligations.AddIMasksTheSum :=
  ⟨selected_row 23 rfl, fun _ s => ⟨_, rfl, toNat_maskAddr _, unchanged_setI s _⟩⟩

/-- Settles O30, by the two cases of the range check: a block write in range, and the fatal condition past 0xFFF. -/
theorem stRegsStoresTheBlockOrHalts : Obligations.StRegsStoresTheBlockOrHalts :=
  ⟨selected_row 24 rfl,
    fun x s hwf hfit => ⟨_, execStRegs_fits x hfit, fun _ => read_storeRegs_le hwf hfit, fun _ => read_storeRegs_out,
      unchanged_storeRegs s _⟩,
    fun x s hout => ⟨_, execStRegs_out x hout, rfl, unchanged_halt s _⟩⟩

/-- Settles O31, by the two cases of the range check: a block read in range, and the fatal condition past 0xFFF. -/
theorem ldRegsLoadsTheBlockOrHalts : Obligations.LdRegsLoadsTheBlockOrHalts :=
  ⟨selected_row 25 rfl,
    fun x s hfit => ⟨_, execLdRegs_fits x hfit, fun _ => getV_loadRegs_le, unchanged_loadRegs s x⟩,
    fun x s hout => ⟨_, execLdRegs_out x hout, rfl, unchanged_halt s _⟩⟩

/-- Settles O32: the load reads, at the I of the store, the bytes that the store has left there. -/
theorem storeThenLoadRestoresTheRegisters : Obligations.StoreThenLoadRestoresTheRegisters := by
  intro x s hwf hfit
  refine ⟨_, execStRegs_fits x hfit, fun t' hmem hi => ⟨_, execLdRegs_fits x (hi ▸ hfit), fun k hk => ?_⟩⟩
  calc (t'.loadRegs (x.val + 1)).getV k
    _ = t'.mem.read (t'.i.toNat + k.val) := getV_loadRegs_le hk
    _ = (s.storeRegs (x.val + 1)).mem.read (s.i.toNat + k.val) := by rw [hmem, hi]
    _ = s.getV k := read_storeRegs_le hwf hfit hk

end Sys2Proof.Machine

/-! ## The display

The statements of spec/44_display.md. What one draw does to the pixels and to VF is `drawSprite_pixel` and
`drawSprite_vf`; a second draw covers the pixels of the first, because a sprite's place and bits depend on V[x], V[y], I
and memory alone (`spriteCovers_congr`). -/

namespace Sys2Proof.Machine

open Sys2Proof

section
variable {s t : State} {x y : RegIdx} {n : Nibble} {cx : Fin 64} {cy : Fin 32}

/-! ### What a sprite covers -/

/-- A sprite of no rows covers no pixel (44_display.md R174). -/
theorem not_spriteCovers_zero : ¬ SpriteCovers s x y 0 cx cy :=
  fun ⟨row, _, hrow, _⟩ => Nat.not_lt_zero row hrow

/-- The pixels that a sprite covers depend on the operands, I and memory alone. -/
theorem spriteCovers_congr (hx : t.getV x = s.getV x) (hy : t.getV y = s.getV y) (hi : t.i = s.i) (hmem : SameMem s t) :
    SpriteCovers t x y n cx cy ↔ SpriteCovers s x y n cx cy := by
  simp only [SpriteCovers, hx, hy, hi, hmem _]

/-! ### VF after a draw -/

/-- VF of a draw is 1 under any condition that is equivalent to a collision, and 0 where it fails. -/
theorem getV_drawSprite_flag {p : Prop} (hp : p ↔ ∃ cx cy, SpriteCovers s x y n cx cy ∧ s.disp.pixel cx cy = true) :
    (p → (s.drawSprite x y n).getV 15 = 1) ∧ (¬ p → (s.drawSprite x y n).getV 15 = 0) := by
  rcases drawSprite_vf (s := s) x y n with ⟨hflag, hc⟩ | ⟨hflag, hc⟩
  · exact ⟨fun _ => hflag, fun hno => absurd (hp.2 hc) hno⟩
  · exact ⟨fun hyes => absurd (hp.1 hyes) hc, fun _ => hflag⟩

/-! ### A frame without the display -/

/-- A frame that leaves the display open may be narrowed where every pixel is as before. -/
theorem Unchanged.of_sameDisp {xs : List RegIdx} {ps : List Part} (h : Unchanged xs (.disp :: ps) s t)
    (hdisp : SameDisp s t) : Unchanged xs ps s t := by
  simpa [Unchanged, hdisp] using h

/-! ### The second of two draws -/

section
variable (hdisp : t.disp = (s.drawSprite x y n).disp)
  (hcov : ∀ cx cy, SpriteCovers t x y n cx cy ↔ SpriteCovers s x y n cx cy)
include hdisp hcov

/-- A sprite drawn on the display that it has drawn gives every pixel back: a covered pixel is flipped twice. -/
theorem sameDisp_redraw : SameDisp s (t.drawSprite x y n) := by
  intro cx cy
  obtain ⟨hflip, hkeep⟩ := drawSprite_pixel (s := s) x y n cx cy
  obtain ⟨hflip', hkeep'⟩ := drawSprite_pixel (s := t) x y n cx cy
  rw [hcov, hdisp] at hflip' hkeep'
  by_cases hc : SpriteCovers s x y n cx cy
  · rw [hflip' hc, hflip hc, Bool.not_not]
  · rw [hkeep' hc, hkeep hc]

/-- The second draw collides exactly where the sprite fell on a pixel that was off before the first. -/
theorem redraw_collides_iff :
    (∃ cx cy, SpriteCovers s x y n cx cy ∧ s.disp.pixel cx cy = false) ↔
      ∃ cx cy, SpriteCovers t x y n cx cy ∧ t.disp.pixel cx cy = true := by
  refine exists_congr fun cx => exists_congr fun cy => ?_
  rw [hcov, hdisp]
  refine and_congr_right fun hc => ?_
  rw [(drawSprite_pixel x y n cx cy).1 hc, Bool.not_eq_true']

end

end

/-! ### The statements -/

/-- Settles O35: CLS puts the blank display in place and marks it dirty. -/
theorem clsBlanksTheDisplay : Obligations.ClsBlanksTheDisplay :=
  ⟨selected_row 0 rfl, fun _ => ⟨_, rfl, pixel_blank, rfl, unchanged_cls⟩⟩

/-- Settles O36, by the two cases of the range check: one draw, pixel by pixel, and the fatal condition past 0xFFF. -/
theorem drwXorsTheSpriteAndReportsCollision : Obligations.DrwXorsTheSpriteAndReportsCollision := by
  refine ⟨selected_row 22 rfl, fun x y n s hfit => ?_, fun x y n s hrows hout => ?_⟩
  · exact ⟨_, execDrw_fits x y n (by omega), drawSprite_pixel x y n, (getV_drawSprite_flag Iff.rfl).1,
      (getV_drawSprite_flag Iff.rfl).2, rfl, unchanged_drawSprite s x y n⟩
  · exact ⟨_, execDrw_out x y n (by omega) (by omega), rfl, unchanged_halt s _⟩

/-- Settles O37: a sprite of no rows fits wherever I is, and covers no pixel. -/
theorem drwOfNoRowsClearsTheFlag : Obligations.DrwOfNoRowsClearsTheFlag := by
  intro x y s
  have hpix : SameDisp s (s.drawSprite x y 0) := fun cx cy =>
    (drawSprite_pixel x y 0 cx cy).2 not_spriteCovers_zero
  have hno : ¬ ∃ cx cy, SpriteCovers s x y 0 cx cy ∧ s.disp.pixel cx cy = true :=
    fun ⟨_, _, hcov, _⟩ => not_spriteCovers_zero hcov
  exact ⟨_, execDrw_fits x y 0 (.inl rfl), (getV_drawSprite_flag Iff.rfl).2 hno, rfl,
    (unchanged_drawSprite s x y 0).of_sameDisp hpix⟩

/-- Settles O38: the second draw covers the pixels of the first. -/
theorem drawingTwiceRestoresTheDisplay : Obligations.DrawingTwiceRestoresTheDisplay := by
  intro x y n s hfit
  refine ⟨_, execDrw_fits x y n hfit, fun t' hdisp hx hy hi hmem => ⟨_, execDrw_fits x y n (hi ▸ hfit), ?_⟩⟩
  have hcov (cx : Fin 64) (cy : Fin 32) : SpriteCovers t' x y n cx cy ↔ SpriteCovers s x y n cx cy :=
    spriteCovers_congr hx hy hi hmem
  exact ⟨sameDisp_redraw hdisp hcov, getV_drawSprite_flag (redraw_collides_iff hdisp hcov)⟩

end Sys2Proof.Machine

/-! ## Unimplemented words

The statements of spec/45_unimplemented.md. The instruction of a named row reports the word that the row read it from
(`exec_named_row`). The opcode table gives every other word of no instruction row to the decoder's rejection, so each word
of no instruction row reports itself (`execDecoded_of_no_row`). -/

namespace Sys2Proof.Machine

open Sys2Proof

section
variable {s : State} {w : Word} {r : OpcodeRow}

/-- A named Unimplemented row's instruction reports the word that encodes it (R182). -/
theorem exec_build_named : ∀ r ∈ namedUnimplementedRows, ∀ (w : Word) (s : State),
    exec (r.build w) s = execUnimplementedWord (encode (r.build w)) s := by
  intro r hr w s
  fin_cases hr <;> rfl

theorem named_mem_tableRows (hr : r ∈ namedUnimplementedRows) : r ∈ Laws.RowMatch.tableRows :=
  List.mem_append_right _ hr

/-- A word that a named row selects is the word that the row's instruction reports: the row puts it together again. -/
theorem exec_named_row (hr : r ∈ namedUnimplementedRows) (h : r.selects w) (s : State) :
    exec (r.build w) s = .next (s.emitUnimplemented w) := by
  rw [exec_build_named r hr, encode_build r (named_mem_tableRows hr) w h, execUnimplementedWord]

/-- A word that no instruction row selects reports itself, whether it is of a named row or of none (R180). -/
theorem execDecoded_of_no_row (h : ∀ r ∈ instructionRows, ¬ r.selects w) (s : State) :
    execDecoded (decode w) s = .next (s.emitUnimplemented w) := by
  obtain ⟨-, -, hno⟩ := decoderAgreesWithOpcodeTable
  obtain hd | ⟨r, hr, hsel, hd⟩ := hno w h
  · rw [hd, execDecoded, execUnimplementedWord]
  · rw [hd, execDecoded, exec_named_row hr hsel]

/-- A report after a fetch changes PC and the outputs alone. -/
theorem unchanged_fetch_emitUnimplemented (s : State) (a w : Word) :
    Unchanged [] [.pc, .dirty, .diag] s ((s.clearOutputs.setPc a).emitUnimplemented w) :=
  (((unchanged_clearOutputs s).mono (List.Subset.refl _) (by simp)).trans
    ((unchanged_setPc _ a).mono (List.Subset.refl _) (by simp))).trans
    ((unchanged_emitUnimplemented _ w).mono (List.Subset.refl _) (by simp))

end

/-! ### The statements -/

/-- Settles O40: a named row is a row of the table, so the decoder finds it, and its instruction reports the word. -/
theorem namedUnimplementedRowsOnlyReport : Obligations.NamedUnimplementedRowsOnlyReport :=
  fun _ hr w hsel => ⟨decode_of_selects (named_mem_tableRows hr) hsel,
    fun s => ⟨_, exec_named_row hr hsel s, rfl, unchanged_emitUnimplemented s w⟩⟩

/-- Settles O8: the fetched word reports itself at the post-fetch state, whose outputs are cleared. -/
theorem stepPassesOverUnimplementedWords : Obligations.StepPassesOverUnimplementedWords := by
  intro s hs hpc hno
  have hin : s.pc.toNat < 0xFFF := by omega
  have hw : BitVec.ofNat 16 s.wordAtPc = wordOfBytes (s.mem.read s.pc.toNat) (s.mem.read (s.pc.toNat + 1)) := by
    rw [← toNat_fetchedWord, BitVec.ofNat_toNat, BitVec.setWidth_eq]
  rw [hw] at hno ⊢
  have hstep := (step_fetch_in hs hin).trans (execDecoded_of_no_row hno _)
  exact ⟨_, hstep, postFetch_pc hin, rfl, rfl, unchanged_fetch_emitUnimplemented s _ _⟩

end Sys2Proof.Machine

/-! ## Fatal conditions

The statement of spec/60_exceptions.md. An instruction whose frame leaves the run status out raises nothing
(`status_mem_writesParts_of_raises`); the other five raise their one condition exactly in the case in which their meaning
takes it (`raises_ret_iff` to `raises_drw_iff`). -/

namespace Sys2Proof.Machine

open Sys2Proof

section
variable {i : Instr} {s t : State} {c : Cause}

/-! ### What each instruction raises (60_exceptions.md R203 to R205, R208) -/

theorem raises_ret_iff : Raises .ret s c ↔ s.stack = [] ∧ c = .stackUnderflow := by
  simp [Raises]

theorem raises_call_iff {nnn : Addr12} :
    Raises (.call nnn) s c ↔ s.cfg.stackDepth = some s.depth ∧ c = .stackOverflow := by
  simp [Raises, State.depth]

theorem raises_stRegs_iff {x : RegIdx} :
    Raises (.stRegs x) s c ↔ 0xFFF < s.i.toNat + x.val ∧ c = .outOfBounds .data 0x1000 := by
  simp [Raises]

theorem raises_ldRegs_iff {x : RegIdx} :
    Raises (.ldRegs x) s c ↔ 0xFFF < s.i.toNat + x.val ∧ c = .outOfBounds .data 0x1000 := by
  simp [Raises]

theorem raises_drw_iff {x y : RegIdx} {n : Nibble} :
    Raises (.drw x y n) s c ↔ ¬ BlockFits s.i.toNat n.toNat ∧ c = .outOfBounds .data 0x1000 := by
  have hrange : 1 ≤ n.toNat ∧ 0xFFF < s.i.toNat + n.toNat - 1 ↔ ¬ BlockFits s.i.toNat n.toNat := by
    simp only [BlockFits, memSize]
    omega
  rw [← hrange]
  simp [Raises]

/-- What raises a condition may write the run status. -/
theorem status_mem_writesParts_of_raises (h : Raises i s c) : Part.status ∈ writesParts i := by
  obtain ⟨rfl, -⟩ | ⟨⟨nnn, rfl⟩, -⟩ | ⟨⟨x, rfl | rfl, -⟩, -⟩ | ⟨⟨x, y, n, rfl, -⟩, -⟩ := h <;> simp [writesParts]

/-! ### A halt that says what was raised -/

/-- The state `t` that `i` leaves is halted exactly with what `i` raises at `s`, and is then `s` but for the status. -/
def HaltsAsRaised (i : Instr) (s t : State) : Prop :=
  ∀ c, (t.status = .halted c ↔ Raises i s c) ∧ (t.status = .halted c → t = s.halt c)

/-- An instruction that goes on halts as raised when it raises nothing. -/
theorem haltsAsRaised_running (ht : t.status = .running) (hno : ∀ c, ¬ Raises i s c) : HaltsAsRaised i s t :=
  fun c => by simp [ht, hno c]

/-- An instruction that takes `c` halts as raised when `c` is what it raises, and all that it raises. -/
theorem haltsAsRaised_halt (h : ∀ c', Raises i s c' ↔ c' = c) : HaltsAsRaised i s (s.halt c) := by
  intro c'
  rw [h c', halt_status, RunStatus.halted.injEq, eq_comm]
  exact ⟨Iff.rfl, fun hc => hc ▸ rfl⟩

/-- An instruction whose frame leaves the run status out goes on, and raises nothing. -/
theorem completes_haltsAsRaised_of_frame (hs : s.status = .running) (hi : Part.status ∉ writesParts i) :
    Completes i s (HaltsAsRaised i s) := by
  refine (exec_frame i s).imp fun t hframe => ?_
  obtain ⟨-, -, -, -, -, -, hstatus, -⟩ := hframe
  exact haltsAsRaised_running ((hstatus hi).trans hs) fun _ => mt status_mem_writesParts_of_raises hi

/-- Every instruction halts exactly as it raises: where its meaning has a condition, in both cases of it. -/
theorem exec_haltsAsRaised (i : Instr) (hs : s.status = .running) : Completes i s (HaltsAsRaised i s) := by
  cases i
  case ret =>
    exact completes_ret (fun hempty => haltsAsRaised_halt fun _ => by simp [raises_ret_iff, hempty])
      (fun a rest hpop => haltsAsRaised_running hs fun _ => by simp [raises_ret_iff, hpop])
  case call nnn =>
    exact completes_call (fun hfull => haltsAsRaised_halt fun _ => by simp [raises_call_iff, hfull])
      (fun hroom => haltsAsRaised_running hs fun _ => by simp [raises_call_iff, hroom])
  case drw x y n =>
    exact completes_drw (fun hfits => haltsAsRaised_running hs fun _ hr => (raises_drw_iff.1 hr).1 hfits)
      (fun hout => haltsAsRaised_halt fun _ => raises_drw_iff.trans (and_iff_right hout))
  case stRegs x =>
    exact completes_stRegs (fun hfits => haltsAsRaised_running hs fun _ hr => hfits.not_gt (raises_stRegs_iff.1 hr).1)
      (fun hout => haltsAsRaised_halt fun _ => raises_stRegs_iff.trans (and_iff_right hout))
  case ldRegs x =>
    exact completes_ldRegs
      (fun hfits => haltsAsRaised_running ((loadRegs_status s _).trans hs)
        fun _ hr => hfits.not_gt (raises_ldRegs_iff.1 hr).1)
      (fun hout => haltsAsRaised_halt fun _ => raises_ldRegs_iff.trans (and_iff_right hout))
  all_goals exact completes_haltsAsRaised_of_frame hs (by simp [writesParts])

end

/-! ### The statement -/

/-- Settles O46, by cases on the instruction (`exec_haltsAsRaised`). -/
theorem eachInstructionRaisesOnlyItsCondition : Obligations.EachInstructionRaisesOnlyItsCondition :=
  fun i _ _ hs h => (exec_haltsAsRaised i hs).of_exec h

end Sys2Proof.Machine

/-! ## Words written out from the patterns

A sanity statement of spec/30_encoding.md. Through the encoder, a word decodes to an instruction when it is the word that
the instruction's pattern writes (`decode_eq_instr_iff`), so each reading is checked against the pattern of R84 and not by
running the decoder; the one rejected word stands in a class of R183. -/

namespace Sys2Proof.Machine

open Sys2Proof

/-- Settles O6: each word is its instruction's encoding, and 0x5121 is a word of category 5 whose low nibble is not 0. -/
theorem writtenOutWordsDecode : Obligations.WrittenOutWordsDecode := by
  have rejected : decode 0x5121 = .unimplemented 0x5121 :=
    wordsOutsideTheTableAreRejected 0x5121 (.inr (.inl (by decide)))
  simp only [Obligations.WrittenOutWordsDecode, decode_eq_instr_iff, rejected]
  decide

end Sys2Proof.Machine
